-- ==== Sys2Proof/Word.lean ====
section
/-! DEFINITION. The widths of the values the block reads and writes (spec 20_memory.md R49; 30_encoding.md R60). -/

namespace Sys2Proof

/-- One byte of a raw buffer, a frame or a transmit buffer (20_memory.md R40). -/
abbrev Byte := BitVec 8

/-- A 16-bit little-endian half of a header (20_memory.md R46). -/
abbrev Half := BitVec 16

/-- A 32-bit header word (30_encoding.md R60) or command word (30_encoding.md R70). -/
abbrev Word := BitVec 32

/-- The 11-bit length field of a header (00_scope.md R6 `LEN_BITS`; 10_state.md R20). -/
abbrev Len := BitVec 11

end Sys2Proof
end

