-- ==== Sys2Proof/Config.lean ====
section
/-! DEFINITION. The constants of the block and the values its spec leaves open (spec 00_scope.md R6, R7). -/

namespace Sys2Proof

/-- `LEN_MAX`: the largest length an 11-bit field declares (00_scope.md R6). -/
def Config.lenMax : Nat := 2047

/-- `ETH_HLEN`: the Ethernet header allowance (00_scope.md R6). -/
def Config.ethHlen : Nat := 14

/-- `VLAN_HLEN`: the VLAN tag allowance (00_scope.md R6). -/
def Config.vlanHlen : Nat := 4

/-- The pad sentinel (00_scope.md R7). -/
def Config.padSentinel : Word := 0xffff0000#32

/-- The largest `mtu` and `mps` operand (30_encoding.md R71; 92_eei_decisions.md D12, D29). -/
def Config.operandMax : Nat := 65535

/-- `RX_BUF_SIZE`, OPEN and informative: the transport's receive buffer size, which the block does not check
(00_scope.md R6; 92_eei_decisions.md D17; log entry 15). It has no body: no proof can see its value. -/
opaque Config.rxBufSize : Nat

/-- `ERROR_CONTEXT`, a FREE VALUE: the `context` of the `n`-th error event of the connection numbered `conn`
(00_scope.md R6; 60_exceptions.md R160; 92_eei_decisions.md D9; log entry 6). It has no body: no proof can see its value. -/
opaque Config.errorContext (conn n : Nat) : Nat

end Sys2Proof
end

