-- ==== Sys2Proof/Syntax.lean ====
section
/-! DEFINITION. The six commands with their operands, and a command as the host sends it: a 32-bit command word with
operand fields carried beside it (spec 30_encoding.md R70, R71, R76). -/

namespace Sys2Proof

/-- The commands of 30_encoding.md R70, one constructor for each row of the opcode table. -/
inductive Instr where
  /-- BIND (43_lifecycle.md R150). -/
  | bind
  /-- UNBIND (43_lifecycle.md R151). -/
  | unbind
  /-- DELIVER (41_decode.md R110): the raw buffer, the MTU, and the allocation outcomes the environment gives, in the
  order they are drawn (00_scope.md R6 `alloc_ok`; 30_encoding.md R76 `alloc=`; log entry 7). -/
  | deliver (buf : List Byte) (mtu : Nat) (alloc : List Bool)
  /-- ENCODE (42_encode.md R140): the frame to transmit and the max packet size. -/
  | encode (frame : List Byte) (mps : Nat)
  /-- ENCODE_HEADER (40_header_codec.md R100): a 16-bit length. -/
  | encodeHeader (len : Half)
  /-- DECODE_HEADER (40_header_codec.md R101): the header's bytes. -/
  | decodeHeader (hdr : List Byte)
  deriving DecidableEq, Repr

/-- The operand fields carried beside a command word (30_encoding.md R70, R71), with the allocation outcomes that come
with a DELIVER (R76). A command reads the fields its `opc` names and no other (log entry 13). -/
structure Operands where
  buf : List Byte
  mtu : Nat
  alloc : List Bool
  frame : List Byte
  mps : Nat
  len : Half
  hdr : List Byte
  deriving DecidableEq, Repr

/-- One command as the host sends it: the connection whose decode state it is sent to (10_state.md R32; log entry 1),
the command word (30_encoding.md R70) and the operands beside it. -/
structure Command where
  conn : Nat
  word : Word
  operands : Operands
  deriving DecidableEq, Repr

end Sys2Proof
end

