-- ==== Sys2Proof/WellFormed.lean ====
section
/-! DEFINITION. The operand ranges a command accepts (spec 30_encoding.md R71). -/

namespace Sys2Proof

/-- The operands of `i` lie in the ranges of 30_encoding.md R71. An instruction that does not pass still decodes, and
running it records the fault of 60_exceptions.md R169 for the operand that is out of range. -/
def Instr.wellFormed : Instr → Bool
  | .bind => true
  | .unbind => true
  | .deliver _ mtu _ => decide (mtu ≤ Config.operandMax)
  | .encode frame mps => decide (frame.length ≤ Config.lenMax) && decide (1 ≤ mps) && decide (mps ≤ Config.operandMax)
  | .encodeHeader len => decide (len.toNat ≤ Config.lenMax)
  | .decodeHeader hdr => decide (hdr.length = 4)

end Sys2Proof
end

