-- ==== Sys2Proof/Decode.lean ====
section
/-! DEFINITION. Reading a command (spec 30_encoding.md R70, R72), and the encoder beside it. -/

namespace Sys2Proof

/-- What the command decoder answers: an instruction, or the rejection of 30_encoding.md R72 with the word rejected. -/
inductive Decoded where
  | instr (i : Instr)
  | reservedCommand (word : Word)
  deriving DecidableEq, Repr

/-- Bits 3:0 of a command word, `opc` (30_encoding.md R70). -/
def opcField (word : Word) : BitVec 4 := word.extractLsb' 0 4

/-- Bits 31:4 of a command word, which must be 0 (30_encoding.md R70). -/
def reservedField (word : Word) : BitVec 28 := word.extractLsb' 4 28

/-- The instruction of a command: by `opc` where bits 31:4 are 0 and `opc` is 0x1 to 0x6, with the operands carried
beside the word (30_encoding.md R70); any other word is no command (R72). -/
def decode (c : Command) : Decoded :=
  if reservedField c.word ≠ 0#28 then .reservedCommand c.word
  else
    match (opcField c.word).toNat with
    | 1 => .instr .bind
    | 2 => .instr .unbind
    | 3 => .instr (.deliver c.operands.buf c.operands.mtu c.operands.alloc)
    | 4 => .instr (.encode c.operands.frame c.operands.mps)
    | 5 => .instr (.encodeHeader c.operands.len)
    | 6 => .instr (.decodeHeader c.operands.hdr)
    | _ => .reservedCommand c.word

/-- The operands of a command that uses none: every field at the least value 30_encoding.md R71 accepts (`mps` from 1,
`hdr` of exactly 4 bytes, the rest empty or 0), and no allocation outcome given (log entry 14). -/
def leastOperands : Operands :=
  { buf := [], mtu := 0, alloc := [], frame := [], mps := 1, len := 0#16, hdr := [0#8, 0#8, 0#8, 0#8] }

/-- The `opc` of an instruction (30_encoding.md R70, the table of command codes). -/
def opcOf : Instr → BitVec 4
  | .bind => 0x1#4
  | .unbind => 0x2#4
  | .deliver _ _ _ => 0x3#4
  | .encode _ _ => 0x4#4
  | .encodeHeader _ => 0x5#4
  | .decodeHeader _ => 0x6#4

/-- The command word of an instruction: `opc` in bits 3:0 and 0 in bits 31:4 (30_encoding.md R70). -/
def encodeWord (i : Instr) : Word := 0#28 ++ opcOf i

/-- The operands of an instruction, each in the field its command reads (30_encoding.md R70). -/
def encodeOperands : Instr → Operands
  | .bind => leastOperands
  | .unbind => leastOperands
  | .deliver buf mtu alloc => { leastOperands with buf := buf, mtu := mtu, alloc := alloc }
  | .encode frame mps => { leastOperands with frame := frame, mps := mps }
  | .encodeHeader len => { leastOperands with len := len }
  | .decodeHeader hdr => { leastOperands with hdr := hdr }

/-- An instruction as a command sent to connection `conn`. -/
def encodeCommand (conn : Nat) (i : Instr) : Command :=
  { conn := conn, word := encodeWord i, operands := encodeOperands i }

/-- The command sent to `conn` whose word is the low `nbits` bits of `w`, as the opcode table numbers them, with the
least operands beside it: the table gives a row no operand bits (log entry 14). -/
def tableCommand (conn nbits w : Nat) : Command :=
  { conn := conn, word := BitVec.ofNat 32 (w % 2 ^ nbits), operands := leastOperands }

/-- The instruction the decoder reads from a command whose word is `w`, numbered as the opcode table numbers it. -/
def decodeTableWord (nbits w : Nat) : Option Instr :=
  match decode (tableCommand 0 nbits w) with
  | .instr i => some i
  | .reservedCommand _ => none

end Sys2Proof
end

