-- ==== Sys2Proof/Machine/State.lean ====
section
/-! DEFINITION. The state of the block as plain data (spec 10_state.md), with what the host has sent and what commands
have returned, the faults recorded, and the reasons a step can stop. -/

namespace Sys2Proof.Machine

/-- Which decode state a connection is in (10_state.md R21). Code 3 is reserved and never written, so it has no
constructor, as R21 allows. -/
inductive Phase where
  /-- Code 0: "no partial frame, no held half-header". -/
  | awaitingHeader
  /-- Code 1: the first 2 bytes of a header are held. -/
  | headerSplit
  /-- Code 2: a header has been decoded and its frame is incomplete. -/
  | awaitingPayload
  deriving DecidableEq, Repr

/-- The decode state `ds` of one connection (10_state.md R20). -/
structure DecodeState where
  /-- `ds.bound`: bound and not yet unbound. -/
  bound : Bool
  /-- `ds.phase`. -/
  phase : Phase
  /-- `ds.low_half`: the first two header bytes, held across a buffer boundary. -/
  lowHalf : Half
  /-- `ds.target`: the declared payload length of the frame being assembled. -/
  target : Len
  /-- `ds.received`: the payload bytes copied so far. -/
  received : Len
  /-- `ds.frame`: none, or the frame being assembled, of capacity `target`. The list holds the bytes written, indexes 0
  to `received - 1`; bytes not written have no value here and none is ever emitted (93_implementation_defined.md row 13;
  log entry 10). -/
  frame : Option (List Byte)
  deriving DecidableEq, Repr

/-- One logical connection: its decode state (10_state.md R32), and the MODEL's own counter of the error contexts it has
drawn, which numbers the free value `Config.errorContext` (log entry 6). -/
structure Connection where
  ds : DecodeState
  draws : Nat
  deriving DecidableEq, Repr

/-- The error kinds of 30_encoding.md R69. -/
inductive ErrorKind where
  /-- Code 1 (60_exceptions.md R161). -/
  | badHeaderChecksum
  /-- Code 2 (60_exceptions.md R162). -/
  | oversizedFrame
  /-- Code 3 (60_exceptions.md R163). -/
  | allocationFailure
  /-- Code 4 (60_exceptions.md R164). -/
  | internalAccountingMismatch
  deriving DecidableEq, Repr

/-- One event of an output trace (30_encoding.md R68). -/
inductive Event where
  /-- `Frame(bytes)`. -/
  | frame (bytes : List Byte)
  /-- `Error(kind, context)`; the context is a free value (60_exceptions.md R160). -/
  | error (kind : ErrorKind) (context : Nat)
  deriving DecidableEq, Repr

/-- What one command returns (30_encoding.md R68, R70). -/
inductive Output where
  /-- BIND, UNBIND (the empty trace) and DELIVER. -/
  | trace (events : List Event)
  /-- ENCODE: the transmit buffer. -/
  | transmit (bytes : List Byte)
  /-- ENCODE_HEADER: the 4 header bytes. -/
  | header (bytes : List Byte)
  /-- DECODE_HEADER: `len` and `valid`. -/
  | decoded (len : Len) (valid : Bool)
  deriving DecidableEq, Repr

/-- What one completed command returned, and the connection it was sent to. -/
structure Emission where
  conn : Nat
  output : Output
  deriving DecidableEq, Repr

/-- The faults: uses of the block outside its contract (60_exceptions.md R169). A faulting command takes a next state that
records its fault and differs in nothing else (R170; `State.recordFault`), so no step answers one as the outcome that ends a
run. Who raises each, below, means: whose next state records it. -/
inductive Fault where
  /-- Raised by a step whose command word is reserved (30_encoding.md R72). Safe. -/
  | reservedCommand
  /-- Raised by DELIVER with `mtu > 65535`, ENCODE with `mps > 65535`, DECODE_HEADER with a `hdr` that is not 4 bytes
  (30_encoding.md R71). Safe; the order of two faults of one command is log entry 11. -/
  | operandOutOfRange
  /-- Raised by DELIVER on an unbound connection (41_decode.md R111). Safe. -/
  | deliverUnbound
  /-- Raised by BIND on a bound connection (43_lifecycle.md R152). Safe. -/
  | bindWhileBound
  /-- Raised by UNBIND on an unbound connection (43_lifecycle.md R153). Safe. -/
  | unbindUnbound
  /-- Raised by ENCODE_HEADER with `len > 2047` (40_header_codec.md R100). Safe. -/
  | headerLengthOutOfRange
  /-- Raised by ENCODE of a frame longer than 2047 bytes (42_encode.md R141). Safe. -/
  | encodeLengthOutOfRange
  /-- Raised by ENCODE with `mps = 0` (42_encode.md R141). Safe. -/
  | maxPacketSizeZero
  deriving DecidableEq, Repr

/-- A recorded fault, and the connection its command was sent to (60_exceptions.md R170; log entry 16). -/
structure FaultRecord where
  conn : Nat
  fault : Fault
  deriving DecidableEq, Repr

/-- The state. `conns` is the block's: the decode state of every connection. `faults` is the record
60_exceptions.md R170 has a model keep. `conn`, `pending` and `outputs` are the MODEL's own record of the host's side (log
entries 1 and 2): no rule of the spec makes them state of the block. -/
structure State where
  /-- Every connection by its number, rising, none listed that equals an unbound one with nothing drawn (log entry 4). -/
  conns : List (Nat × Connection)
  /-- The connection the command now running was sent to. -/
  conn : Nat
  /-- Commands sent and not yet run, oldest first (20_memory.md R53). -/
  pending : List Command
  /-- What completed commands returned, oldest first (20_memory.md R53, R54). -/
  outputs : List Emission
  /-- Every fault recorded so far, oldest first; none is ever cleared (60_exceptions.md R170; 00_scope.md R10; log entry
  16). -/
  faults : List FaultRecord
  deriving DecidableEq, Repr

/-- Power-on: every connection is unbound (10_state.md R33; 70_reset_and_hazards.md R191); the host has sent nothing
and no fault is recorded. -/
def State.reset : State := { conns := [], conn := 0, pending := [], outputs := [], faults := [] }

/-- Instructions the model gives no meaning. -/
inductive Refusal where
  /-- Raised by an arm of `exec` that has no meaning yet; no arm does. Safe. -/
  | notModelled (mnemonic : String)
  deriving DecidableEq, Repr

end Sys2Proof.Machine
end

