-- ==== Sys2Proof/Machine/Ops.lean ====
section
/-! DEFINITION. The named operations over byte sequences, connections, the decode state and the output trace, and the
taking of an error event. -/

namespace Sys2Proof.Machine

/-! ### Byte sequences (spec 00_scope.md R10; 20_memory.md R43 to R46) -/

/-- `buf[i]`. A read at or past the end gives 0; no rule makes one (00_scope.md R10; 20_memory.md R41; log entry 12). -/
def byteAt (buf : List Byte) (i : Nat) : Byte := buf.getD i 0#8

/-- `LE16(buf, i)` (00_scope.md R10). -/
def le16 (buf : List Byte) (i : Nat) : Half :=
  (byteAt buf i).setWidth 16 ||| ((byteAt buf (i + 1)).setWidth 16 <<< 8)

/-- `LE32(buf, i)` (00_scope.md R10). -/
def le32 (buf : List Byte) (i : Nat) : Word :=
  (byteAt buf i).setWidth 32 ||| ((byteAt buf (i + 1)).setWidth 32 <<< 8)
    ||| ((byteAt buf (i + 2)).setWidth 32 <<< 16) ||| ((byteAt buf (i + 3)).setWidth 32 <<< 24)

/-- `BYTES32LE(w)` (00_scope.md R10). -/
def bytes32LE (w : Word) : List Byte :=
  [w.extractLsb' 0 8, w.extractLsb' 8 8, w.extractLsb' 16 8, w.extractLsb' 24 8]

/-! ### Codes (spec 10_state.md R21; 30_encoding.md R69) -/

/-- The 2-bit code of a phase (10_state.md R21). -/
def Phase.code : Phase → BitVec 2
  | .awaitingHeader => 0#2
  | .headerSplit => 1#2
  | .awaitingPayload => 2#2

/-- The code of an error kind (30_encoding.md R69). -/
def ErrorKind.code : ErrorKind → Nat
  | .badHeaderChecksum => 1
  | .oversizedFrame => 2
  | .allocationFailure => 3
  | .internalAccountingMismatch => 4

/-! ### The decode state (spec 10_state.md R33; 41_decode.md R121) -/

/-- A decode state before any BIND and after UNBIND: `bound` is 0 and there is no frame; the fields R33 gives no meaning
to are 0 (10_state.md R33; log entry 8). -/
def DecodeState.unbound : DecodeState :=
  { bound := false, phase := .awaitingHeader, lowHalf := 0#16, target := 0#11, received := 0#11, frame := none }

/-- `reset_ds()` (41_decode.md R121). -/
def DecodeState.resetDs (ds : DecodeState) : DecodeState :=
  { ds with phase := .awaitingHeader, lowHalf := 0#16, target := 0#11, received := 0#11, frame := none }

/-! ### Connections (spec 10_state.md R32; log entry 4) -/

/-- What a connection that is not listed holds: never bound, no context drawn (10_state.md R33). -/
def Connection.fresh : Connection := { ds := DecodeState.unbound, draws := 0 }

/-- The connection numbered `c`. -/
def lookupConn : List (Nat × Connection) → Nat → Connection
  | [], _ => Connection.fresh
  | (k, v) :: rest, c => if k = c then v else lookupConn rest c

/-- An entry for `c`, unless it would equal what an unlisted connection holds. -/
def consConn (c : Nat) (v : Connection) (rest : List (Nat × Connection)) : List (Nat × Connection) :=
  if v = Connection.fresh then rest else (c, v) :: rest

/-- The connection numbered `c` set to `v`, the rest as before; the list stays rising and lists no fresh connection. -/
def storeConn : List (Nat × Connection) → Nat → Connection → List (Nat × Connection)
  | [], c, v => consConn c v []
  | (k, u) :: rest, c, v =>
    if k < c then (k, u) :: storeConn rest c v
    else if k = c then consConn c v rest
    else consConn c v ((k, u) :: rest)

/-- The canonical form: numbers strictly rising from `low`, and no entry equal to a fresh connection. -/
def connsWfFrom : Nat → List (Nat × Connection) → Bool
  | _, [] => true
  | low, (k, v) :: rest => decide (low ≤ k) && decide (v ≠ Connection.fresh) && connsWfFrom (k + 1) rest

/-- The canonical form of the map of connections. -/
def connsWf (conns : List (Nat × Connection)) : Bool := connsWfFrom 0 conns

/-- The connection the command now running was sent to. -/
def State.connection (s : State) : Connection := lookupConn s.conns s.conn

/-- The state with that connection set to `v`. -/
def State.setConnection (s : State) (v : Connection) : State := { s with conns := storeConn s.conns s.conn v }

/-- The state with the output of the command now running recorded last (20_memory.md R53, R54). -/
def State.emit (s : State) (o : Output) : State := { s with outputs := s.outputs ++ [{ conn := s.conn, output := o }] }

/-- A command faults: the fault is recorded after those recorded before, and nothing else changes: no output, and no state
of the block (60_exceptions.md R170; 90_conflicts.md C13; log entry 16). -/
def State.recordFault (s : State) (r : Fault) : State := { s with faults := s.faults ++ [{ conn := s.conn, fault := r }] }

/-! ### Commands (spec 20_memory.md R53; 60_exceptions.md R178; log entry 2) -/

/-- The host sends a command: it waits after those already sent. -/
def State.send (s : State) (c : Command) : State := { s with pending := s.pending ++ [c] }

/-- The oldest command, and the state in which it runs: taken from the queue, its connection the current one. -/
def State.takeCommand (s : State) : Option (Command × State) :=
  match s.pending with
  | [] => none
  | c :: rest => some (c, { s with pending := rest, conn := c.conn })

/-! ### One DELIVER in progress (spec 10_state.md R22; 41_decode.md R110) -/

/-- What one DELIVER is given and never changes: the connection it was sent to, `buf` and `mtu`. -/
structure Delivery where
  conn : Nat
  buf : List Byte
  mtu : Nat
  deriving DecidableEq, Repr

/-- What one DELIVER carries from step to step: the decode state, the contexts drawn so far, the byte cursor `offset`,
the allocation outcomes not yet drawn, and the output trace so far. -/
structure Cursor where
  ds : DecodeState
  draws : Nat
  offset : Nat
  alloc : List Bool
  trace : List Event
  deriving DecidableEq, Repr

/-- `emit Frame(bytes)` (00_scope.md R10). -/
def Cursor.emitFrame (c : Cursor) (bytes : List Byte) : Cursor := { c with trace := c.trace ++ [.frame bytes] }

/-- Taking an error event, the one entry every error path shares: `emit Error(kind)` with a drawn context, then
`reset_ds()` (60_exceptions.md R160, R167; 41_decode.md R121). Nothing is saved and control goes nowhere (R167), and
there is no return: the next DELIVER starts in AwaitingHeader at offset 0 (R168). -/
def Cursor.raise (d : Delivery) (kind : ErrorKind) (c : Cursor) : Cursor :=
  { c with
    ds := c.ds.resetDs
    draws := c.draws + 1
    trace := c.trace ++ [.error kind (Config.errorContext d.conn c.draws)] }

/-- `draw alloc_ok`: the next outcome given with the command; when none is left, success (00_scope.md R10;
30_encoding.md R76; log entry 7). -/
def Cursor.drawAlloc (c : Cursor) : Bool × Cursor :=
  match c.alloc with
  | [] => (true, c)
  | ok :: rest => (ok, { c with alloc := rest })

end Sys2Proof.Machine
end

