-- ==== Sys2Proof/Machine/Operands.lean ====
section
/-! DEFINITION. How operands are assembled (spec 30_encoding.md R61, R73) and the ranges they must lie in (R71). -/

namespace Sys2Proof.Machine

/-- A whole header word: `LE32(buf, offset)` (30_encoding.md R73, unsplit; 41_decode.md R115). -/
def wholeHeader (buf : List Byte) (offset : Nat) : Word := le32 buf offset

/-- A split header word: the held low half and the high half just read (30_encoding.md R73, split; 41_decode.md R113). -/
def splitHeader (low high : Half) : Word := low.setWidth 32 ||| (high.setWidth 32 <<< 16)

/-- The encoder's header word for a length (30_encoding.md R61): the length in the low half, its 16-bit complement in
the high half. -/
def headerWord (n : Half) : Word := n.setWidth 32 ||| ((~~~n).setWidth 32 <<< 16)

/-- `mtu` or `mps` fits its 16-bit operand (30_encoding.md R71; 92_eei_decisions.md D31). -/
def fitsOperand (v : Nat) : Bool := decide (v ≤ Config.operandMax)

/-- `hdr` is exactly 4 bytes (30_encoding.md R71). -/
def isHeaderOperand (hdr : List Byte) : Bool := decide (hdr.length = 4)

/-- A length the 11-bit field holds (40_header_codec.md R100; 42_encode.md R141). -/
def fitsLength (n : Nat) : Bool := decide (n ≤ Config.lenMax)

end Sys2Proof.Machine
end

