-- ==== Sys2Proof/Machine/Flags.lean ====
section
/-! DEFINITION. The two flags of the block (spec 10_state.md R27) and the header test behind `valid`
(30_encoding.md R62). -/

namespace Sys2Proof.Machine

/-- `len = w & 0x7ff`, as its 11 bits `w[10:0]` (30_encoding.md R62, R73). -/
def headerLen (w : Word) : Len := w.extractLsb' 0 11

/-- `check = ((~w) >> 16) & 0x7ff`, with `~w` at 32 bits, as its 11 bits (30_encoding.md R62). -/
def headerCheck (w : Word) : Len := ((~~~w) >>> 16).extractLsb' 0 11

/-- The `valid` result: `len == check` (30_encoding.md R62; 40_header_codec.md R101). -/
def headerValid (w : Word) : Bool := headerLen w == headerCheck w

/-- The HeaderSplit flag (10_state.md R27). -/
def DecodeState.headerSplitFlag (ds : DecodeState) : Bool := decide (ds.phase = .headerSplit)

end Sys2Proof.Machine
end

