-- ==== Sys2Proof/Machine/DecodeMachine.lean ====
section
/-! DEFINITION. The Decode State Machine: DELIVER (spec 41_decode.md R110 to R126), one definition for each step of R110's
procedure. -/

namespace Sys2Proof.Machine

/-- What reading a header can lead to (41_decode.md R112 to R116). -/
inductive HeaderRead where
  /-- A header word was read and goes to the header check. -/
  | word (w : Word) (c : Cursor)
  /-- The loop ends; the post-condition check follows. -/
  | exit (c : Cursor)
  /-- The DELIVER ends at once after an error. -/
  | abort (c : Cursor)
  deriving DecidableEq, Repr

/-- How a step of the loop ends. -/
inductive Flow where
  /-- Processing goes on. -/
  | again (c : Cursor)
  /-- The loop ends; the post-condition check follows. -/
  | exit (c : Cursor)
  /-- The DELIVER ends at once after an error (41_decode.md R127). -/
  | abort (c : Cursor)
  deriving DecidableEq, Repr

/-- The cursor moved on by `n` bytes. -/
def Cursor.advance (c : Cursor) (n : Nat) : Cursor := { c with offset := c.offset + n }

/-- Leaving HeaderSplit: the held half is combined and cleared (41_decode.md R113). -/
def Cursor.leaveSplit (c : Cursor) : Cursor :=
  { c with ds := { c.ds with phase := .awaitingHeader, lowHalf := 0#16 } }

/-- Entering HeaderSplit: the low half is held (41_decode.md R114). -/
def Cursor.holdHalf (c : Cursor) (low : Half) : Cursor :=
  { c with ds := { c.ds with phase := .headerSplit, lowHalf := low } }

/-- Reading a header where one is expected, by the bytes that remain: fewer than 2 (41_decode.md R112), the second half
of a split header (R113, taken before the count is looked at further), exactly 2 (R114), exactly 3 (R116), 4 or more
(R115). -/
def readHeader (d : Delivery) (c : Cursor) : HeaderRead :=
  if d.buf.length < c.offset + 2 then .exit c
  else if c.ds.phase = .headerSplit then
    .word (splitHeader c.ds.lowHalf (le16 d.buf c.offset)) (c.leaveSplit.advance 2)
  else if d.buf.length = c.offset + 2 then .exit ((c.holdHalf (le16 d.buf c.offset)).advance 2)
  else if d.buf.length = c.offset + 3 then .abort (c.raise d .internalAccountingMismatch)
  else .word (wholeHeader d.buf c.offset) (c.advance 4)

/-- The size bound `MTU + ETH_HLEN + VLAN_HLEN` (41_decode.md R118). -/
def sizeBound (mtu : Nat) : Nat := mtu + Config.ethHlen + Config.vlanHlen

/-- The start of a payload of `len` bytes (41_decode.md R120). -/
def Cursor.startPayload (c : Cursor) (len : Len) : Cursor :=
  { c with ds := { c.ds with phase := .awaitingPayload, target := len, received := 0#11, frame := some [] } }

/-- The allocation of 41_decode.md R119, and the start of the payload (R120) when it succeeds. -/
def allocate (d : Delivery) (len : Len) (c : Cursor) : Flow :=
  match c.drawAlloc with
  | (true, c') => .again (c'.startPayload len)
  | (false, c') => .abort (c'.raise d .allocationFailure)

/-- The checks of a header word in their order, the first failure the only one reported (60_exceptions.md R166): the
complement (41_decode.md R117), the size (R118), the allocation (R119). -/
def acceptHeader (d : Delivery) (w : Word) (c : Cursor) : Flow :=
  if ¬ headerValid w then .abort (c.raise d .badHeaderChecksum)
  else if sizeBound d.mtu < (headerLen w).toNat then .abort (c.raise d .oversizedFrame)
  else allocate d (headerLen w) c

/-- `n = min(L - offset, target - received)` (41_decode.md R122). -/
def copyCount (d : Delivery) (c : Cursor) : Nat :=
  min (d.buf.length - c.offset) (c.ds.target.toNat - c.ds.received.toNat)

/-- The payload copy (41_decode.md R122): the next `n` bytes of the buffer become the frame's next bytes. -/
def copyPayload (d : Delivery) (c : Cursor) : Cursor :=
  { c with
    ds := { c.ds with
      received := BitVec.ofNat 11 (c.ds.received.toNat + copyCount d c)
      frame := some (c.ds.frame.getD [] ++ (d.buf.drop c.offset).take (copyCount d c)) }
    offset := c.offset + copyCount d c }

/-- Completion (41_decode.md R123) and the pad skip (R124) when all of the frame has been received. -/
def completeFrame (c : Cursor) : Cursor :=
  if c.ds.received = c.ds.target then
    { (c.emitFrame (c.ds.frame.getD [])).advance (c.ds.target.toNat % 2) with
      ds := { c.ds with phase := .awaitingHeader, target := 0#11, received := 0#11, frame := none } }
  else c

/-- The end of a pass (41_decode.md R125). -/
def loopBack (d : Delivery) (c : Cursor) : Flow :=
  if d.buf.length ≤ c.offset then .exit c else .again c

/-- The payload part of a pass: copy, completion, and whether the loop goes on (41_decode.md R122 to R125). -/
def payloadStage (d : Delivery) (c : Cursor) : Flow := loopBack d (completeFrame (copyPayload d c))

/-- The header part of a pass, and the payload part after an accepted header (41_decode.md R112 to R125). -/
def headerStage (d : Delivery) (c : Cursor) : Flow :=
  match readHeader d c with
  | .exit c' => .exit c'
  | .abort c' => .abort c'
  | .word w c' =>
    match acceptHeader d w c' with
    | .again c'' => payloadStage d c''
    | .exit c'' => .exit c''
    | .abort c'' => .abort c''

/-- One pass of the loop (41_decode.md R110). -/
def deliverPass (d : Delivery) (c : Cursor) : Flow :=
  if c.ds.phase = .awaitingPayload then payloadStage d c else headerStage d c

/-- The post-condition check (41_decode.md R126). -/
def postCheck (d : Delivery) (c : Cursor) : Cursor :=
  if c.offset = d.buf.length then c else c.raise d .internalAccountingMismatch

/-- The loop (41_decode.md R110, R125) in at most `fuel` passes. Each pass that goes on moves the cursor at least one
byte and leaves it inside the buffer, so L + 1 passes are never used up in a state a run reaches (log entry 12). -/
def deliverLoop (d : Delivery) : Nat → Cursor → Cursor
  | 0, c => postCheck d c
  | fuel + 1, c =>
    match deliverPass d c with
    | .again c' => deliverLoop d fuel c'
    | .exit c' => postCheck d c'
    | .abort c' => c'

/-- The cursor a DELIVER starts with: `offset` 0 and an empty trace (41_decode.md R110). -/
def startCursor (v : Connection) (alloc : List Bool) : Cursor :=
  { ds := v.ds, draws := v.draws, offset := 0, alloc := alloc, trace := [] }

/-- A whole DELIVER on connection `v` (41_decode.md R110). -/
def runDelivery (d : Delivery) (v : Connection) (alloc : List Bool) : Cursor :=
  deliverLoop d (d.buf.length + 1) (startCursor v alloc)

/-- The state after a DELIVER that ended with cursor `c`: the decode state kept, the trace returned. -/
def State.endDelivery (s : State) (c : Cursor) : State :=
  (s.setConnection { ds := c.ds, draws := c.draws }).emit (.trace c.trace)

/-- DELIVER (41_decode.md R110, R111). The width of `mtu` is checked first (log entry 11). -/
def execDeliver (buf : List Byte) (mtu : Nat) (alloc : List Bool) (s : State) : Host.Outcome State Fault Refusal :=
  if ¬ fitsOperand mtu then .next (s.recordFault .operandOutOfRange)
  else if ¬ s.connection.ds.bound then .next (s.recordFault .deliverUnbound)
  else .next (s.endDelivery (runDelivery { conn := s.conn, buf := buf, mtu := mtu } s.connection alloc))

end Sys2Proof.Machine
end

