-- ==== Sys2Proof/Machine/EncodeTransform.lean ====
section
/-! DEFINITION. The Encode Transform: ENCODE (spec 42_encode.md). -/

namespace Sys2Proof.Machine

/-- `needs_pad = ((n + 4) mod mps = 0)` (42_encode.md R142). -/
def needsPad (n mps : Nat) : Bool := decide ((n + 4) % mps = 0)

/-- The transmit buffer: header, frame, and the sentinel if it is needed (42_encode.md R143). -/
def transmitBuffer (frame : List Byte) (mps : Nat) : List Byte :=
  bytes32LE (headerWord (BitVec.ofNat 16 frame.length)) ++ frame
    ++ (if needsPad frame.length mps then bytes32LE Config.padSentinel else [])

/-- ENCODE (42_encode.md R140). The width of `mps` is checked first, then R140's two checks in its order (log entry 11). -/
def execEncode (frame : List Byte) (mps : Nat) (s : State) : Host.Outcome State Fault Refusal :=
  if ¬ fitsOperand mps then .next (s.recordFault .operandOutOfRange)
  else if ¬ fitsLength frame.length then .next (s.recordFault .encodeLengthOutOfRange)
  else if mps = 0 then .next (s.recordFault .maxPacketSizeZero)
  else .next (s.emit (.transmit (transmitBuffer frame mps)))

end Sys2Proof.Machine
end

