-- ==== Sys2Proof/Machine/HeaderCodec.lean ====
section
/-! DEFINITION. The Frame Header Codec: ENCODE_HEADER and DECODE_HEADER (spec 40_header_codec.md). -/

namespace Sys2Proof.Machine

/-- ENCODE_HEADER (40_header_codec.md R100). -/
def execEncodeHeader (len : Half) (s : State) : Host.Outcome State Fault Refusal :=
  if fitsLength len.toNat then .next (s.emit (.header (bytes32LE (headerWord len))))
  else .next (s.recordFault .headerLengthOutOfRange)

/-- DECODE_HEADER (40_header_codec.md R101). -/
def execDecodeHeader (hdr : List Byte) (s : State) : Host.Outcome State Fault Refusal :=
  if isHeaderOperand hdr then .next (s.emit (.decoded (headerLen (le32 hdr 0)) (headerValid (le32 hdr 0))))
  else .next (s.recordFault .operandOutOfRange)

end Sys2Proof.Machine
end

