-- ==== Sys2Proof/Machine/Lifecycle.lean ====
section
/-! DEFINITION. The lifecycle of a connection's decode state: BIND and UNBIND (spec 43_lifecycle.md). -/

namespace Sys2Proof.Machine

/-- BIND (43_lifecycle.md R150, R152). -/
def execBind (s : State) : Host.Outcome State Fault Refusal :=
  if s.connection.ds.bound then .next (s.recordFault .bindWhileBound)
  else .next ((s.setConnection { s.connection with ds := { s.connection.ds.resetDs with bound := true } }).emit (.trace []))

/-- UNBIND (43_lifecycle.md R151, R153, R154): the partial frame or half-header is discarded with no event. -/
def execUnbind (s : State) : Host.Outcome State Fault Refusal :=
  if s.connection.ds.bound then
    .next ((s.setConnection { s.connection with ds := { s.connection.ds.resetDs with bound := false } }).emit (.trace []))
  else .next (s.recordFault .unbindUnbound)

end Sys2Proof.Machine
end

