-- ==== Sys2Proof/Machine/Dispatch.lean ====
section
/-! DEFINITION. One arm for each command of the opcode table (spec 30_encoding.md R70). -/

namespace Sys2Proof.Machine

def exec (i : Instr) (s : State) : Host.Outcome State Fault Refusal :=
  match i with
  | .bind => Sys2Proof.Machine.execBind s
  | .unbind => Sys2Proof.Machine.execUnbind s
  | .deliver buf mtu alloc => Sys2Proof.Machine.execDeliver buf mtu alloc s
  | .encode frame mps => Sys2Proof.Machine.execEncode frame mps s
  | .encodeHeader len => Sys2Proof.Machine.execEncodeHeader len s
  | .decodeHeader hdr => Sys2Proof.Machine.execDecodeHeader hdr s

end Sys2Proof.Machine
end

