-- ==== Sys2Proof/Machine/Step.lean ====
section
/-! DEFINITION. One step: the oldest command the host has sent is run to completion (spec 00_scope.md R11;
20_memory.md R53). -/

namespace Sys2Proof.Machine

/-- One step. With no command waiting the block is idle and holds its state (60_exceptions.md R178; log entry 3); a reserved word
records its fault (30_encoding.md R72; 60_exceptions.md R170); any other command runs as one atomic step (00_scope.md R11). -/
def step (s : State) : Host.Outcome State Fault Refusal :=
  match s.takeCommand with
  | none => .next s
  | some (c, s') =>
    match decode c with
    | .instr i => exec i s'
    | .reservedCommand _ => .next (s'.recordFault .reservedCommand)

/-- `s` with the command of the opcode table's word `w` the next one to run, sent to the current connection
(log entries 2 and 14). -/
def State.withFetchWord (s : State) (nbits w : Nat) : State :=
  { s with pending := tableCommand s.conn nbits w :: s.pending }

end Sys2Proof.Machine
end

