-- ==== Sys2Proof/Machine/Stream.lean ====
section
/-! DEFINITION. Received units and the stream they form (spec 30_encoding.md R64, R65), the cuts of a stream into buffers
(41_decode.md R130), and a run of DELIVERs. -/

namespace Sys2Proof.Machine

/-- One received unit (30_encoding.md R64): its header word, its payload, and the byte that stands after the payload when
its length is odd. Nothing is asked of that byte's value (41_decode.md R133). -/
structure StreamUnit where
  header : Word
  payload : List Byte
  pad : Byte
  deriving DecidableEq, Repr

/-- The bytes of a unit in order (30_encoding.md R64). -/
def StreamUnit.bytes (u : StreamUnit) : List Byte :=
  bytes32LE u.header ++ u.payload ++ (if u.payload.length % 2 = 1 then [u.pad] else [])

/-- `unit_len(len) = 4 + len + (len mod 2)` (30_encoding.md R64). -/
def unitLength (len : Nat) : Nat := 4 + len + len % 2

/-- A unit of a well-formed stream under `mtu` (41_decode.md R130): its header is valid, declares the payload's length,
and the length is within the size bound. -/
def StreamUnit.wellFormed (mtu : Nat) (u : StreamUnit) : Bool :=
  headerValid u.header && decide ((headerLen u.header).toNat = u.payload.length) && decide (u.payload.length ≤ mtu + 18)

/-- The bytes of a stream of units (30_encoding.md R65). -/
def streamBytes (units : List StreamUnit) : List Byte := units.flatMap StreamUnit.bytes

/-- Position `p` is a bad cut of the stream of `units` whose first byte is at position `s` (41_decode.md R130). -/
def badCut : Nat → List StreamUnit → Nat → Bool
  | _, [], _ => false
  | s, u :: rest, p =>
    decide (p = s + 1) || decide (p = s + 3)
      || (decide (u.payload.length % 2 = 1) && decide (p = s + 4 + u.payload.length))
      || badCut (s + unitLength u.payload.length) rest p

/-- The positions, counted from `s`, at which the given buffers end, the end of the last one included. -/
def cutPositions : Nat → List (List Byte) → List Nat
  | _, [] => []
  | s, b :: rest => (s + b.length) :: cutPositions (s + b.length) rest

/-- DELIVER of each buffer in order, on the current connection, all with one `mtu` and one list of allocation outcomes. -/
def runDelivers (mtu : Nat) (alloc : List Bool) : List (List Byte) → State → Host.Outcome State Fault Refusal
  | [], s => .next s
  | b :: rest, s =>
    match exec (.deliver b mtu alloc) s with
    | .next t => runDelivers mtu alloc rest t
    | .fault r => .fault r
    | .refused r => .refused r

end Sys2Proof.Machine
end

