-- ==== Sys2Proof/Safety.lean ====
section
/-! DEFINITION. What claims are stated in: the invariant of the state, what an output trace holds, and what stays as it
was. -/

namespace Sys2Proof.Machine

/-- The invariant of a decode state between commands (spec 10_state.md R25, R33; the fields with no meaning are 0 or none,
92_eei_decisions.md D15 and log entry 8). -/
abbrev DecodeState.Inv (ds : DecodeState) : Prop :=
  (ds.bound = false → ds = DecodeState.unbound)
    ∧ (ds.phase = .awaitingHeader → ds.lowHalf = 0#16 ∧ ds.target = 0#11 ∧ ds.received = 0#11 ∧ ds.frame = none)
    ∧ (ds.phase = .headerSplit → ds.target = 0#11 ∧ ds.received = 0#11 ∧ ds.frame = none)
    ∧ (ds.phase = .awaitingPayload → ds.lowHalf = 0#16 ∧ ds.received.toNat < ds.target.toNat
        ∧ ds.frame.map List.length = some ds.received.toNat)

/-- The invariant of the state: the map of connections is in its canonical form, and every connection in it meets its
own invariant. -/
abbrev State.Inv (s : State) : Prop := connsWf s.conns = true ∧ ∀ e ∈ s.conns, e.2.ds.Inv

/-- The decode state of a connection that is bound and empty (10_state.md R33, after BIND; 41_decode.md R121). -/
def DecodeState.boundEmpty : DecodeState := { DecodeState.unbound with bound := true }

/-- The events an output holds: a trace's; the other outputs hold none (30_encoding.md R68). -/
def Output.events : Output → List Event
  | .trace es => es
  | .transmit _ => []
  | .header _ => []
  | .decoded _ _ => []

/-- The events returned by the commands that completed between `s` and `t`. -/
def State.eventsSince (s t : State) : List Event :=
  (t.outputs.drop s.outputs.length).flatMap fun e => e.output.events

/-- The error kind of an event, if it is an error (30_encoding.md R69). -/
def Event.errorKind : Event → Option ErrorKind
  | .frame _ => none
  | .error k _ => some k

/-- Nothing of the state but the current connection and the records of outputs and of faults differs: the frame every
command keeps (20_memory.md R55). -/
def State.OthersUnchanged (s t : State) : Prop :=
  t.conn = s.conn ∧ t.pending = s.pending ∧ ∀ c, c ≠ s.conn → lookupConn t.conns c = lookupConn s.conns c

/-- `buf` opens with the rest of header word `w`: all 4 bytes of it where a header is expected, or, where its low half is
held, its last 2 (41_decode.md R113, R115); `rest` follows. -/
def HeaderArrives (ds : DecodeState) (buf : List Byte) (w : Word) (rest : List Byte) : Prop :=
  (ds.phase = .awaitingHeader ∧ buf = bytes32LE w ++ rest)
    ∨ (ds.phase = .headerSplit ∧ ds.lowHalf = w.extractLsb' 0 16 ∧ buf = (bytes32LE w).drop 2 ++ rest)

/-- The host keeps the transport's own bound on a raw buffer, which the block does not check (00_scope.md R6
`RX_BUF_SIZE`). No claim needs it. -/
def WithinReceiveBuffer (buf : List Byte) : Prop := buf.length ≤ Config.rxBufSize

/-- Command `i`, sent to the current connection of `s`, is within the block's contract: its operands lie in their ranges
(30_encoding.md R71), BIND finds the connection unbound and UNBIND and DELIVER find it bound (60_exceptions.md R169). -/
def withinContract (s : State) (i : Instr) : Bool :=
  i.wellFormed &&
    match i with
    | .bind => !s.connection.ds.bound
    | .unbind => s.connection.ds.bound
    | .deliver _ _ _ => s.connection.ds.bound
    | .encode _ _ => true
    | .encodeHeader _ => true
    | .decodeHeader _ => true

/-- The condition of each fault for command `i`, sent to the current connection of `s` (the table of 60_exceptions.md R169).
Two can hold at once (log entry 11). `ReservedCommand` is the fault of a word that is no command (30_encoding.md R72). -/
def faultCondition (s : State) (i : Instr) (r : Fault) : Bool :=
  match i with
  | .bind => decide (r = .bindWhileBound) && s.connection.ds.bound
  | .unbind => decide (r = .unbindUnbound) && !s.connection.ds.bound
  | .deliver _ mtu _ =>
    (decide (r = .operandOutOfRange) && decide (65535 < mtu)) || (decide (r = .deliverUnbound) && !s.connection.ds.bound)
  | .encode frame mps =>
    (decide (r = .operandOutOfRange) && decide (65535 < mps)) || (decide (r = .maxPacketSizeZero) && decide (mps = 0))
      || (decide (r = .encodeLengthOutOfRange) && decide (2047 < frame.length))
  | .encodeHeader len => decide (r = .headerLengthOutOfRange) && decide (2047 < len.toNat)
  | .decodeHeader hdr => decide (r = .operandOutOfRange) && decide (hdr.length ≠ 4)

/-- A run of `k` steps from `s` is a successful one: it holds no recorded fault (60_exceptions.md R170;
95_test_vectors.md, after P8). -/
def RunsWithoutFault (k : Nat) (s : State) : Prop := ∃ t, core.run k s = .next t ∧ t.faults = []

end Sys2Proof.Machine
end

