-- ==== Sys2Proof/Certificates/Slice0/Obligations.lean ====
section
/-! DEFINITION. The statements for the provers, each with the rule of spec/ it formalises. Throughout, what a command returns
is recorded by `State.emit` (log entry 2), a fault by `State.recordFault` (60_exceptions.md R170; log entry 16), and the
current connection is a label of the model (log entry 1). -/

open Sys2Proof Sys2Proof.Machine

/-! ### Commands and steps -/

/-- 30_encoding.md R70: the six command words, whatever operands stand beside them, each with the operands it reads (the
operand record and the allocation outcomes in it are the model's choice, log entries 7 and 13). -/
def Obligations.CommandWordsDecodeToTheirCommands : Prop :=
  ∀ (conn : Nat) (ops : Operands),
    decode ⟨conn, 0x00000001#32, ops⟩ = .instr .bind
      ∧ decode ⟨conn, 0x00000002#32, ops⟩ = .instr .unbind
      ∧ decode ⟨conn, 0x00000003#32, ops⟩ = .instr (.deliver ops.buf ops.mtu ops.alloc)
      ∧ decode ⟨conn, 0x00000004#32, ops⟩ = .instr (.encode ops.frame ops.mps)
      ∧ decode ⟨conn, 0x00000005#32, ops⟩ = .instr (.encodeHeader ops.len)
      ∧ decode ⟨conn, 0x00000006#32, ops⟩ = .instr (.decodeHeader ops.hdr)

/-- 30_encoding.md R72: a word whose `opc` is 0x0 or 0x7 to 0xF, or that has any of bits 31:4 set, is no command: its fault is
recorded and nothing else changes; every other word is a command. (That the command leaves the queue, and the label of its
connection, are log entries 1 and 2.) -/
def Obligations.ReservedWordsFault : Prop :=
  ∀ (s : State) (c : Command) (rest : List Command), s.pending = c :: rest →
    ((c.word.toNat % 16 = 0 ∨ 7 ≤ c.word.toNat % 16 ∨ c.word.toNat / 16 ≠ 0) →
        (∀ i, decode c ≠ .instr i)
          ∧ step s = .next (State.recordFault { s with pending := rest, conn := c.conn } .reservedCommand))
      ∧ ((1 ≤ c.word.toNat % 16 ∧ c.word.toNat % 16 ≤ 6 ∧ c.word.toNat / 16 = 0) → ∃ i, decode c = .instr i)

/-- 30_encoding.md R70 to R72: decoding an encoded instruction gives it back with every operand, and a command that
decodes to an instruction has exactly that instruction's word. -/
def Obligations.DecodeInvertsEncode : Prop :=
  (∀ (conn : Nat) (i : Instr), decode (encodeCommand conn i) = .instr i)
    ∧ ∀ (c : Command) (i : Instr), decode c = .instr i →
        c.word = encodeWord i ∧ decode (encodeCommand c.conn i) = decode c

/-- 00_scope.md R11 and 20_memory.md R53: a step runs the oldest command the host has sent, on the connection it was sent
to, as one step, and takes it from those waiting (the queue is the model's own, log entry 2). -/
def Obligations.StepRunsTheOldestCommand : Prop :=
  ∀ (s : State) (c : Command) (rest : List Command) (i : Instr), s.pending = c :: rest → decode c = .instr i →
    step s = exec i { s with pending := rest, conn := c.conn }

/-- 60_exceptions.md R178: between commands the block is idle and holds its state (that an idle block steps at all is the
model's choice, log entry 3). -/
def Obligations.IdleStepHoldsTheState : Prop :=
  ∀ s : State, s.pending = [] → step s = .next s

/-- 20_memory.md R53 and 60_exceptions.md R171: a command the host sends while another is the oldest neither changes nor
interrupts that one. That it waits in a queue at all is the model's choice (log entry 2): 70_reset_and_hazards.md R193 has the
host send none early. (Equal error contexts in both runs: log entry 6.) -/
def Obligations.LaterCommandsWaitTheirTurn : Prop :=
  ∀ (s : State) (c : Command), s.pending ≠ [] → ∃ t, step s = .next t ∧ step (s.send c) = .next (t.send c)

/-- 20_memory.md R54, 30_encoding.md R68 and 60_exceptions.md R170: each command returns one output, after every earlier one,
or records one fault and returns none; nothing recorded is ever taken back. (The queue and the records of outputs and of
faults are the model's own, log entries 2 and 16.) -/
def Obligations.OutputsAreAppendedInOrder : Prop :=
  ∀ s t : State, step s = .next t →
    (s.pending = [] → t.outputs = s.outputs ∧ t.faults = s.faults)
      ∧ ∀ c rest, s.pending = c :: rest →
        (∃ o, t.outputs = s.outputs ++ [⟨c.conn, o⟩] ∧ t.faults = s.faults)
          ∨ ∃ r, t.outputs = s.outputs ∧ t.faults = s.faults ++ [⟨c.conn, r⟩]

/-- 60_exceptions.md R170, with 00_scope.md R10: every run of steps goes on, keeps every fault recorded before it, and is no
successful run once one is recorded (the record's form is the model's, log entry 16). -/
def Obligations.FaultsAreNeverCleared : Prop :=
  ∀ (s : State) (k : Nat),
    (∃ t new, Sys2Proof.core.run k s = .next t ∧ t.faults = s.faults ++ new) ∧ (s.faults ≠ [] → ¬ RunsWithoutFault k s)

/-- 60_exceptions.md R170 and 90_conflicts.md C13: every step answers a next state, and one that records a fault records one
and changes nothing else: no output, and no state of any connection. (The queue, the label and the record: log entries 1, 2
and 16.) -/
def Obligations.FaultingCommandsChangeNothing : Prop :=
  ∀ s : State, ∃ t, step s = .next t
    ∧ (t.faults = s.faults
        ∨ ∃ c rest r, s.pending = c :: rest ∧ t = State.recordFault { s with pending := rest, conn := c.conn } r)

/-! ### Header codec -/

/-- 40_header_codec.md R100 and 30_encoding.md R61: ENCODE_HEADER. (The record of faults: log entry 16.) -/
def Obligations.EncodeHeaderReturnsLengthAndComplement : Prop :=
  ∀ (s : State) (len : Half),
    (∀ (conn : Nat) (ops : Operands), decode ⟨conn, 0x00000005#32, { ops with len := len }⟩ = .instr (.encodeHeader len))
      ∧ (2047 < len.toNat → exec (.encodeHeader len) s = .next (s.recordFault .headerLengthOutOfRange))
      ∧ (len.toNat ≤ 2047 → ∃ w : Word,
          w.toNat = len.toNat + (65535 - len.toNat) * 65536
            ∧ w.extractLsb' 16 16 = 0xF800#16 ||| (~~~len &&& 0x7ff#16)
            ∧ exec (.encodeHeader len) s
              = .next (s.emit (.header
                  [w.extractLsb' 0 8, w.extractLsb' 8 8, w.extractLsb' 16 8, w.extractLsb' 24 8])))

/-- 40_header_codec.md R101: DECODE_HEADER, in unbounded arithmetic on the header word.
(The record of faults: log entry 16.) -/
def Obligations.DecodeHeaderReturnsLengthAndValid : Prop :=
  ∀ s : State,
    (∀ (conn : Nat) (ops : Operands), decode ⟨conn, 0x00000006#32, ops⟩ = .instr (.decodeHeader ops.hdr))
      ∧ (∀ hdr : List Byte, hdr.length ≠ 4 → exec (.decodeHeader hdr) s = .next (s.recordFault .operandOutOfRange))
      ∧ ∀ (b0 b1 b2 b3 : Byte) (w len check : Nat),
          w = b0.toNat + 256 * b1.toNat + 65536 * b2.toNat + 16777216 * b3.toNat →
          len = w % 2048 → check = (4294967295 - w) / 65536 % 2048 →
          exec (.decodeHeader [b0, b1, b2, b3]) s = .next (s.emit (.decoded (BitVec.ofNat 11 len) (decide (len = check))))

/-- 30_encoding.md R62: the length and the check of a header word, and when it is valid. -/
def Obligations.HeaderTestComparesTheComplement : Prop :=
  ∀ w : Word,
    (headerLen w).toNat = (w &&& 0x7ff#32).toNat
      ∧ (headerCheck w).toNat = (((~~~w) >>> 16) &&& 0x7ff#32).toNat
      ∧ (headerValid w = true ↔ headerLen w = headerCheck w)
      ∧ (headerValid w = true ↔ w.extractLsb' 16 11 = w.extractLsb' 0 11 ^^^ 0x7ff#11)
      ∧ ∀ v : Word, w &&& 0x07ff07ff#32 = v &&& 0x07ff07ff#32 → headerValid v = headerValid w ∧ headerLen v = headerLen w

/-- 30_encoding.md R63: exactly 2^21 header words are valid, and every encoder output is. -/
def Obligations.ValidHeaderWordsAreCounted : Prop :=
  Nat.card { w : Word // headerValid w = true } = 2 ^ 21
    ∧ ∀ n : Half, n.toNat ≤ 2047 → headerValid (headerWord n) = true

/-- 40_header_codec.md R102: the header round trip, each command in a state of its own. -/
def Obligations.HeaderRoundTrip : Prop :=
  ∀ (s s' : State) (n : Half), n.toNat ≤ 2047 →
    ∃ h : List Byte, exec (.encodeHeader n) s = .next (s.emit (.header h))
      ∧ exec (.decodeHeader h) s' = .next (s'.emit (.decoded (n.setWidth 11) true))

/-- 40_header_codec.md R103: a flip of one bit of a valid header. -/
def Obligations.OneBitFlipsOfAValidHeader : Prop :=
  ∀ (s : State) (w : Word) (len : Len) (k : Nat),
    exec (.decodeHeader (bytes32LE w)) s = .next (s.emit (.decoded len true)) →
      ((k ≤ 10 ∨ (16 ≤ k ∧ k ≤ 26)) →
          ∃ len', exec (.decodeHeader (bytes32LE (w ^^^ (1#32 <<< k)))) s = .next (s.emit (.decoded len' false)))
        ∧ (((11 ≤ k ∧ k ≤ 15) ∨ (27 ≤ k ∧ k ≤ 31)) →
          exec (.decodeHeader (bytes32LE (w ^^^ (1#32 <<< k)))) s = .next (s.emit (.decoded len true)))

/-- 40_header_codec.md R104: the complement masked to 11 bits is accepted as well as the full 16-bit one. -/
def Obligations.MaskedComplementIsAccepted : Prop :=
  ∀ (s : State) (n : Half), n.toNat ≤ 2047 →
    exec (.decodeHeader (bytes32LE (n.setWidth 32 ||| ((~~~n &&& 0x7ff#16).setWidth 32 <<< 16)))) s
        = .next (s.emit (.decoded (n.setWidth 11) true))
      ∧ exec (.decodeHeader (bytes32LE (n.setWidth 32 ||| ((~~~n).setWidth 32 <<< 16)))) s
        = .next (s.emit (.decoded (n.setWidth 11) true))

/-- 20_memory.md R46: a 32-bit read sees what two 16-bit reads see, so a split header is the word of an unsplit one. -/
def Obligations.SplitHeaderIsTheSameWord : Prop :=
  ∀ (buf : List Byte) (i : Nat), splitHeader (le16 buf i) (le16 buf (i + 2)) = le32 buf i

/-! ### Encode -/

/-- 30_encoding.md R66 and 42_encode.md R143: the transmit buffer ENCODE returns. -/
def Obligations.EncodeReturnsTheTransmitBuffer : Prop :=
  ∀ (s : State) (frame : List Byte) (mps : Nat), frame.length ≤ 2047 → 1 ≤ mps → mps ≤ 65535 →
    ∃ w : Word, w.toNat = frame.length + (65535 - frame.length) * 65536
      ∧ exec (.encode frame mps) s
        = .next (s.emit (.transmit
            ([w.extractLsb' 0 8, w.extractLsb' 8 8, w.extractLsb' 16 8, w.extractLsb' 24 8] ++ frame
              ++ if (frame.length + 4) % mps = 0 then [0x00#8, 0x00#8, 0xFF#8, 0xFF#8] else [])))

/-- 42_encode.md R141: what ENCODE faults on, for an `mps` that fits its operand.
(The record of faults: log entry 16.) -/
def Obligations.EncodeFaultsOutsideItsContract : Prop :=
  ∀ (s : State) (frame : List Byte) (mps : Nat),
    (2047 < frame.length → mps ≤ 65535 → exec (.encode frame mps) s = .next (s.recordFault .encodeLengthOutOfRange))
      ∧ (frame.length ≤ 2047 → exec (.encode frame 0) s = .next (s.recordFault .maxPacketSizeZero))

/-- 42_encode.md R144: the length of the transmit buffer. -/
def Obligations.EncodeOutputLength : Prop :=
  ∀ (s : State) (frame : List Byte) (mps : Nat), frame.length ≤ 2047 → 1 ≤ mps → mps ≤ 65535 →
    ∃ out, exec (.encode frame mps) s = .next (s.emit (.transmit out))
      ∧ out.length = frame.length + 4 + (if (frame.length + 4) % mps = 0 then 4 else 0)
      ∧ (out.length % 2 = 0 ↔ frame.length % 2 = 0)

/-- 42_encode.md R148 (90_conflicts.md C11): the length is no multiple of `mps` when `mps > 4`; with `mps` 1, 2 or 4 the
sentinel leaves it one. -/
def Obligations.SentinelAvoidsPacketMultiples : Prop :=
  ∀ (s : State) (frame : List Byte) (mps : Nat), frame.length ≤ 2047 → 1 ≤ mps → mps ≤ 65535 →
    ∃ out, exec (.encode frame mps) s = .next (s.emit (.transmit out))
      ∧ (4 < mps → out.length % mps ≠ 0)
      ∧ ((mps = 1 ∨ mps = 2 ∨ mps = 4) → (frame.length + 4) % mps = 0 → out.length % mps = 0)

/-- 10_state.md R31: ENCODE, ENCODE_HEADER and DECODE_HEADER are functions of their operands alone, and all they do to the
state is that their result is returned, or their fault recorded. (The record of faults: log entry 16.) -/
def Obligations.StatelessCommandsArePure : Prop :=
  ∀ i : Instr, ((∃ frame mps, i = .encode frame mps) ∨ (∃ len, i = .encodeHeader len) ∨ (∃ hdr, i = .decodeHeader hdr)) →
    (∃ r, ∀ s, exec i s = .next (s.recordFault r)) ∨ (∃ o, ∀ s, exec i s = .next (s.emit o))

/-- 30_encoding.md R71: operands outside their widths fault (each where no other fault of 60_exceptions.md R169 holds).
(The record of faults: log entry 16.) -/
def Obligations.OperandsOutOfRangeFault : Prop :=
  ∀ s : State,
    (∀ (buf : List Byte) (mtu : Nat) (alloc : List Bool), s.connection.ds.bound = true → 65535 < mtu →
        exec (.deliver buf mtu alloc) s = .next (s.recordFault .operandOutOfRange))
      ∧ (∀ (frame : List Byte) (mps : Nat), frame.length ≤ 2047 → 65535 < mps →
        exec (.encode frame mps) s = .next (s.recordFault .operandOutOfRange))
      ∧ ∀ hdr : List Byte, hdr.length ≠ 4 → exec (.decodeHeader hdr) s = .next (s.recordFault .operandOutOfRange)

/-- 60_exceptions.md R169 and R170, and 30_encoding.md R71: a command within the block's contract (`withinContract`: its
operands in their ranges, its connection bound or unbound as it needs) returns an output and records no fault; every other
command records a fault whose condition in R169's table holds, and does nothing else. (Which one, where two hold, is log entry
11: this says nothing of it.) -/
def Obligations.FaultsExactlyOutsideTheContract : Prop :=
  ∀ (s : State) (i : Instr),
    (withinContract s i = true →
        (∀ r, faultCondition s i r = false)
          ∧ ∃ t o, exec i s = .next t ∧ t.outputs = s.outputs ++ [⟨s.conn, o⟩] ∧ t.faults = s.faults)
      ∧ (withinContract s i = false → ∃ r, faultCondition s i r = true ∧ exec i s = .next (s.recordFault r))

/-! ### Lifecycle and reset -/

/-- 43_lifecycle.md R150: BIND, with the fields of 10_state.md R33. (The counter of error contexts, which is the model's own,
is kept: log entry 6.) -/
def Obligations.BindCreatesAnEmptyDecodeState : Prop :=
  ∀ s : State,
    (∀ (conn : Nat) (ops : Operands), decode ⟨conn, 0x00000001#32, ops⟩ = .instr .bind)
      ∧ (s.connection.ds.bound = true → exec .bind s = .next (s.recordFault .bindWhileBound))
      ∧ (s.connection.ds.bound = false →
          exec .bind s
            = .next ((s.setConnection
                { s.connection with
                  ds := { bound := true, phase := .awaitingHeader, lowHalf := 0#16, target := 0#11, received := 0#11,
                          frame := none } }).emit (.trace [])))

/-- 43_lifecycle.md R152: BIND on a bound connection. (The record of faults: log entry 16.) -/
def Obligations.BindWhileBoundFaults : Prop :=
  ∀ s : State, s.connection.ds.bound = true → exec .bind s = .next (s.recordFault .bindWhileBound)

/-- 43_lifecycle.md R151 and R154: UNBIND discards what is held and emits no event. (The values of the fields 10_state.md R33
gives no meaning after UNBIND are the model's, log entry 8; this says nothing of them.) -/
def Obligations.UnbindDiscardsSilently : Prop :=
  ∀ s : State, s.connection.ds.bound = true →
    ∃ ds, ds.bound = false ∧ ds.frame = none
      ∧ exec .unbind s = .next ((s.setConnection { s.connection with ds := ds }).emit (.trace []))

/-- 43_lifecycle.md R153: UNBIND and DELIVER on a connection that is not bound; the other commands do not depend on
binding. (The record of faults: log entry 16.) -/
def Obligations.UnboundConnectionsFault : Prop :=
  ∀ s : State, s.connection.ds.bound = false →
    exec .unbind s = .next (s.recordFault .unbindUnbound)
      ∧ (∀ (buf : List Byte) (mtu : Nat) (alloc : List Bool), mtu ≤ 65535 →
          exec (.deliver buf mtu alloc) s = .next (s.recordFault .deliverUnbound))
      ∧ (∀ (frame : List Byte) (mps : Nat), frame.length ≤ 2047 → 1 ≤ mps → mps ≤ 65535 →
          ∃ out, exec (.encode frame mps) s = .next (s.emit (.transmit out)))
      ∧ (∀ len : Half, len.toNat ≤ 2047 → ∃ out, exec (.encodeHeader len) s = .next (s.emit (.header out)))
      ∧ ∀ hdr : List Byte, hdr.length = 4 → ∃ l v, exec (.decodeHeader hdr) s = .next (s.emit (.decoded l v))

/-- 10_state.md R33 and 70_reset_and_hazards.md R191: at power-on no connection is bound and none holds a frame. -/
def Obligations.NoConnectionIsBoundAtReset : Prop :=
  ∀ c : Nat, (lookupConn State.reset.conns c).ds.bound = false ∧ (lookupConn State.reset.conns c).ds.frame = none

/-- The invariant of `DecodeInvariantIsKept` holds at reset. -/
def Obligations.ResetMeetsTheDecodeInvariant : Prop := State.reset.Inv

/-- 10_state.md R25, with D15 of 92_eei_decisions.md: every step keeps the invariant of every connection (`State.Inv`): the
clauses of R25, the fields that have no meaning 0 or none (D15; after UNBIND the model's choice, log entry 8), and the
map of connections in its canonical form (the model's, log entry 4). -/
def Obligations.DecodeInvariantIsKept : Prop :=
  ∀ s t : State, s.Inv → step s = .next t → t.Inv

/-! ### DELIVER -/

/-- 41_decode.md R110 and 60_exceptions.md R165: a DELIVER on a bound connection completes on every buffer, returns one
trace, stays bound, and changes nothing of any other connection. -/
def Obligations.DeliverCompletesOnEveryBuffer : Prop :=
  ∀ (s : State) (buf : List Byte) (mtu : Nat) (alloc : List Bool), s.connection.ds.bound = true → mtu ≤ 65535 →
    ∃ (v : Connection) (es : List Event), v.ds.bound = true
      ∧ exec (.deliver buf mtu alloc) s = .next ((s.setConnection v).emit (.trace es))
      ∧ State.OthersUnchanged s ((s.setConnection v).emit (.trace es))

/-- 41_decode.md R111: a DELIVER on an unbound connection, whatever its buffer holds.
(The record of faults: log entry 16.) -/
def Obligations.DeliverUnboundFaults : Prop :=
  ∀ (s : State) (buf : List Byte) (mtu : Nat) (alloc : List Bool), s.connection.ds.bound = false → mtu ≤ 65535 →
    exec (.deliver buf mtu alloc) s = .next (s.recordFault .deliverUnbound)

/-- 41_decode.md R131: an empty buffer. -/
def Obligations.EmptyBufferChangesNothing : Prop :=
  ∀ (s : State) (mtu : Nat) (alloc : List Bool), s.Inv → s.connection.ds.bound = true → mtu ≤ 65535 →
    exec (.deliver [] mtu alloc) s = .next (s.emit (.trace []))

/-- 41_decode.md R114, R112, R126 and R116: one, two or three bytes where a header is expected, after any number of whole
units delivered in the same buffer. (The error's context: log entry 6.) -/
def Obligations.LeftoverBytesWhereAHeaderIsExpected : Prop :=
  ∀ (s : State) (units : List StreamUnit) (a b c : Byte) (mtu : Nat) (alloc : List Bool),
    s.connection.ds = .boundEmpty → mtu ≤ 65535 → (∀ x ∈ alloc, x = true) → (∀ u ∈ units, u.wellFormed mtu = true) →
      exec (.deliver (streamBytes units ++ [a]) mtu alloc) s
          = .next ((s.setConnection ⟨.boundEmpty, s.connection.draws + 1⟩).emit (.trace
              (units.map (fun u => .frame u.payload)
                ++ [.error .internalAccountingMismatch (Config.errorContext s.conn s.connection.draws)])))
        ∧ exec (.deliver (streamBytes units ++ [a, b]) mtu alloc) s
          = .next ((s.setConnection
              ⟨{ DecodeState.boundEmpty with phase := .headerSplit, lowHalf := BitVec.ofNat 16 (a.toNat + 256 * b.toNat) },
                s.connection.draws⟩).emit (.trace (units.map fun u => .frame u.payload)))
        ∧ exec (.deliver (streamBytes units ++ [a, b, c]) mtu alloc) s
          = .next ((s.setConnection ⟨.boundEmpty, s.connection.draws + 1⟩).emit (.trace
              (units.map (fun u => .frame u.payload)
                ++ [.error .internalAccountingMismatch (Config.errorContext s.conn s.connection.draws)])))

/-- 41_decode.md R112 and R126 in phase HeaderSplit: one stray byte loses the held half-header. (The error's context: log entry 6.) -/
def Obligations.StrayByteLosesTheHeldHalf : Prop :=
  ∀ (s : State) (a : Byte) (mtu : Nat) (alloc : List Bool),
    s.connection.ds.bound = true → s.connection.ds.phase = .headerSplit → mtu ≤ 65535 →
      exec (.deliver [a] mtu alloc) s
        = .next ((s.setConnection ⟨.boundEmpty, s.connection.draws + 1⟩).emit (.trace
            [.error .internalAccountingMismatch (Config.errorContext s.conn s.connection.draws)]))

/-- 41_decode.md R117 to R119, R136 and 60_exceptions.md R166: the three checks of a header, whole or split, in their order;
a failure is the one event, resets the state and leaves the rest of the buffer unread. (The error's context: log entry 6.) -/
def Obligations.HeaderChecksAbortInOrder : Prop :=
  ∀ (s : State) (w : Word) (buf rest : List Byte) (mtu : Nat) (alloc : List Bool),
    s.connection.ds.bound = true → mtu ≤ 65535 → HeaderArrives s.connection.ds buf w rest →
      (headerValid w = false →
          exec (.deliver buf mtu alloc) s
            = .next ((s.setConnection ⟨.boundEmpty, s.connection.draws + 1⟩).emit (.trace
                [.error .badHeaderChecksum (Config.errorContext s.conn s.connection.draws)])))
        ∧ (headerValid w = true → mtu + 18 < (headerLen w).toNat →
          exec (.deliver buf mtu alloc) s
            = .next ((s.setConnection ⟨.boundEmpty, s.connection.draws + 1⟩).emit (.trace
                [.error .oversizedFrame (Config.errorContext s.conn s.connection.draws)])))
        ∧ (headerValid w = true → (headerLen w).toNat ≤ mtu + 18 → alloc.head? = some false →
          exec (.deliver buf mtu alloc) s
            = .next ((s.setConnection ⟨.boundEmpty, s.connection.draws + 1⟩).emit (.trace
                [.error .allocationFailure (Config.errorContext s.conn s.connection.draws)])))

/-- 41_decode.md R120 and R122: an accepted header whose payload does not all arrive starts a frame that holds what did. -/
def Obligations.AcceptedHeaderStartsAFrame : Prop :=
  ∀ (s : State) (w : Word) (buf rest : List Byte) (mtu : Nat) (alloc : List Bool),
    s.Inv → s.connection.ds.bound = true → mtu ≤ 65535 → HeaderArrives s.connection.ds buf w rest →
    headerValid w = true → (headerLen w).toNat ≤ mtu + 18 → alloc.head? ≠ some false → rest.length < (headerLen w).toNat →
      exec (.deliver buf mtu alloc) s
        = .next ((s.setConnection
            ⟨{ bound := true, phase := .awaitingPayload, lowHalf := 0#16, target := headerLen w,
               received := BitVec.ofNat 11 rest.length, frame := some rest }, s.connection.draws⟩).emit (.trace []))

/-- 41_decode.md R123, R124 and R126: a unit that arrives whole emits its frame; the byte after an odd payload is skipped,
and where it is missing the cursor runs past the end. (The error's context: log entry 6.) -/
def Obligations.WholeUnitEmitsItsFrame : Prop :=
  ∀ (s : State) (w : Word) (buf payload tail : List Byte) (mtu : Nat) (alloc : List Bool),
    s.Inv → s.connection.ds.bound = true → mtu ≤ 65535 → HeaderArrives s.connection.ds buf w (payload ++ tail) →
    headerValid w = true → (headerLen w).toNat = payload.length → payload.length ≤ mtu + 18 → alloc.head? ≠ some false →
      (tail.length = payload.length % 2 →
          exec (.deliver buf mtu alloc) s
            = .next ((s.setConnection ⟨.boundEmpty, s.connection.draws⟩).emit (.trace [.frame payload])))
        ∧ (payload.length % 2 = 1 → tail = [] →
          exec (.deliver buf mtu alloc) s
            = .next ((s.setConnection ⟨.boundEmpty, s.connection.draws + 1⟩).emit (.trace
                [.frame payload, .error .internalAccountingMismatch (Config.errorContext s.conn s.connection.draws)])))

/-- 41_decode.md R122 and R135: a frame in progress takes every byte of a buffer that ends before the frame does, whatever
the `mtu`. -/
def Obligations.PayloadCarriesOnUnderAnyMtu : Prop :=
  ∀ (s : State) (f buf : List Byte) (mtu : Nat) (alloc : List Bool),
    s.Inv → s.connection.ds.bound = true → s.connection.ds.phase = .awaitingPayload → s.connection.ds.frame = some f →
    mtu ≤ 65535 → f.length + buf.length < s.connection.ds.target.toNat →
      exec (.deliver buf mtu alloc) s
        = .next ((s.setConnection
            { s.connection with
              ds := { s.connection.ds with received := BitVec.ofNat 11 (f.length + buf.length), frame := some (f ++ buf) } }).emit
            (.trace []))

/-- 41_decode.md R123 to R126 and R135: a frame in progress is emitted as soon as its last byte arrives, whatever the `mtu`;
what follows its pad byte is decoded as from the empty state; and where an odd frame's last byte ends the buffer, the pad
skip runs past the end. (The error's context, and equal contexts in the two runs: log entry 6.) -/
def Obligations.PayloadCompletesUnderAnyMtu : Prop :=
  ∀ (s : State) (f p : List Byte) (mtu : Nat) (alloc : List Bool),
    s.Inv → s.connection.ds.bound = true → s.connection.ds.phase = .awaitingPayload → s.connection.ds.frame = some f →
    mtu ≤ 65535 → f.length + p.length = s.connection.ds.target.toNat →
      (∀ (tail rest : List Byte) (v : Connection) (es : List Event), tail.length = s.connection.ds.target.toNat % 2 →
          exec (.deliver rest mtu alloc) (s.setConnection ⟨.boundEmpty, s.connection.draws⟩)
              = .next (((s.setConnection ⟨.boundEmpty, s.connection.draws⟩).setConnection v).emit (.trace es)) →
            exec (.deliver (p ++ tail ++ rest) mtu alloc) s
              = .next ((s.setConnection v).emit (.trace (.frame (f ++ p) :: es))))
        ∧ (s.connection.ds.target.toNat % 2 = 1 →
          exec (.deliver p mtu alloc) s
            = .next ((s.setConnection ⟨.boundEmpty, s.connection.draws + 1⟩).emit (.trace
                [.frame (f ++ p), .error .internalAccountingMismatch (Config.errorContext s.conn s.connection.draws)])))

/-- 41_decode.md R119, R125, R129 and 20_memory.md R54: units that arrive whole take one allocation outcome each, in order;
where these succeed, they are emitted one by one in order, and what follows them is decoded, with the outcomes that remain,
as if it had come alone. Where every outcome succeeds, how many are given does not matter (30_encoding.md R76; log entry 7).
(Equal error contexts in the two runs: log entry 6.) -/
def Obligations.UnitsThenRest : Prop :=
  ∀ (s : State) (units : List StreamUnit) (rest : List Byte) (mtu : Nat) (alloc alloc' : List Bool) (v : Connection)
    (es : List Event),
    s.connection.ds = .boundEmpty → mtu ≤ 65535 → (∀ u ∈ units, u.wellFormed mtu = true) →
    (∀ x ∈ alloc.take units.length, x = true) →
    (alloc' = alloc.drop units.length ∨ ((∀ x ∈ alloc, x = true) ∧ ∀ x ∈ alloc', x = true)) →
    exec (.deliver rest mtu alloc') s = .next ((s.setConnection v).emit (.trace es)) →
      exec (.deliver (streamBytes units ++ rest) mtu alloc) s
        = .next ((s.setConnection v).emit (.trace (units.map (fun u => .frame u.payload) ++ es)))

/-- 41_decode.md R132 and R134: a valid header of length 0 (the pad sentinel is one) emits an empty frame where a header is
expected, and decoding goes on right after it.
(The error's context, and equal contexts in the two runs: log entry 6.) -/
def Obligations.ZeroLengthUnitEmitsAnEmptyFrame : Prop :=
  (headerValid 0xffff0000#32 = true ∧ headerLen 0xffff0000#32 = 0#11
      ∧ bytes32LE 0xffff0000#32 = [0x00#8, 0x00#8, 0xFF#8, 0xFF#8])
    ∧ ∀ (s : State) (w : Word) (buf rest : List Byte) (mtu : Nat) (alloc : List Bool) (v : Connection) (es : List Event),
      s.Inv → s.connection.ds.bound = true → mtu ≤ 65535 → HeaderArrives s.connection.ds buf w rest →
      headerValid w = true → headerLen w = 0#11 →
        (alloc.head? = some false →
          exec (.deliver buf mtu alloc) s
            = .next ((s.setConnection ⟨.boundEmpty, s.connection.draws + 1⟩).emit (.trace
                [.error .allocationFailure (Config.errorContext s.conn s.connection.draws)])))
        ∧ (alloc.head? ≠ some false →
          exec (.deliver rest mtu alloc.tail) (s.setConnection ⟨.boundEmpty, s.connection.draws⟩)
              = .next (((s.setConnection ⟨.boundEmpty, s.connection.draws⟩).setConnection v).emit (.trace es)) →
            exec (.deliver buf mtu alloc) s = .next ((s.setConnection v).emit (.trace (.frame [] :: es))))

/-- 41_decode.md R133: the value of the pad byte after an odd payload. (Equal error contexts in both runs: log entry 6.) -/
def Obligations.PadByteIsNeverRead : Prop :=
  ∀ (s : State) (w : Word) (buf buf' payload rest : List Byte) (b b' : Byte) (mtu : Nat) (alloc : List Bool),
    s.Inv → HeaderArrives s.connection.ds buf w (payload ++ b :: rest) →
    HeaderArrives s.connection.ds buf' w (payload ++ b' :: rest) →
    (headerLen w).toNat = payload.length → payload.length % 2 = 1 →
      exec (.deliver buf mtu alloc) s = exec (.deliver buf' mtu alloc) s

/-- 30_encoding.md R74: the ignored bits of a received header, whole or split, change nothing DELIVER does. (Equal error
contexts in both runs: log entry 6.) -/
def Obligations.IgnoredHeaderBitsChangeNothing : Prop :=
  ∀ (s : State) (w w' : Word) (buf buf' rest : List Byte) (mtu : Nat) (alloc : List Bool),
    w &&& 0x07ff07ff#32 = w' &&& 0x07ff07ff#32 → HeaderArrives s.connection.ds buf w rest →
    HeaderArrives s.connection.ds buf' w' rest →
      exec (.deliver buf mtu alloc) s = exec (.deliver buf' mtu alloc) s

/-- 41_decode.md R128: the shape of a trace. -/
def Obligations.TraceIsFramesThenAtMostOneError : Prop :=
  ∀ (s : State) (buf : List Byte) (mtu : Nat) (alloc : List Bool), s.connection.ds.bound = true → mtu ≤ 65535 →
    ∃ (v : Connection) (fs : List (List Byte)) (err : List Event),
      exec (.deliver buf mtu alloc) s = .next ((s.setConnection v).emit (.trace (fs.map .frame ++ err)))
        ∧ (err = [] ∨ ∃ k x, err = [.error k x] ∧ v.ds.phase = .awaitingHeader)

/-- 41_decode.md R121, R137 and 60_exceptions.md R160: an error event resets the decode state and leaves it bound; its context
is the next drawn value of the connection (the counter is the model's, log entry 6). -/
def Obligations.EveryErrorResetsTheDecodeState : Prop :=
  ∀ (s : State) (buf : List Byte) (mtu : Nat) (alloc : List Bool) (v : Connection) (es : List Event) (k : ErrorKind)
    (x : Nat), s.connection.ds.bound = true → mtu ≤ 65535 →
    exec (.deliver buf mtu alloc) s = .next ((s.setConnection v).emit (.trace es)) → connsWf s.conns = true →
    .error k x ∈ es →
      v = ⟨.boundEmpty, s.connection.draws + 1⟩ ∧ x = Config.errorContext s.conn s.connection.draws

/-- 10_state.md R25 and 70_reset_and_hazards.md R196: a frame in progress after a DELIVER was accepted under its `mtu`, or was
already in progress and this DELIVER emitted nothing. -/
def Obligations.FrameInProgressFitsItsMtu : Prop :=
  ∀ (s t : State) (buf : List Byte) (mtu : Nat) (alloc : List Bool), s.Inv →
    exec (.deliver buf mtu alloc) s = .next t → t.connection.ds.phase = .awaitingPayload →
      t.connection.ds.target.toNat ≤ mtu + 18
        ∨ (s.connection.ds.phase = .awaitingPayload ∧ t.connection.ds.target = s.connection.ds.target
            ∧ s.eventsSince t = [])

/-- 41_decode.md R129 and 10_state.md R20: no frame is longer than an 11-bit length says. -/
def Obligations.EmittedFramesFitTheLengthField : Prop :=
  ∀ (s t : State) (buf : List Byte) (mtu : Nat) (alloc : List Bool) (bytes : List Byte), s.Inv →
    exec (.deliver buf mtu alloc) s = .next t → .frame bytes ∈ s.eventsSince t → bytes.length ≤ 2047

/-- 41_decode.md R125 and 10_state.md R23: a pass that goes on moves the cursor by at least 1, by at least 2 where it read a
header, and leaves it inside the buffer; a pass that ends the loop leaves it in 0 to L + 1. So a DELIVER ends within L + 1
passes: that many, the model's own bound on its loop (log entry 12), are never used up. -/
def Obligations.DeliverEndsInBoundedPasses : Prop :=
  (∀ (d : Delivery) (c c' : Cursor), c.ds.Inv → c.ds.bound = true → c.offset ≤ d.buf.length →
      (deliverPass d c = .again c' →
          c'.ds.Inv ∧ c'.ds.bound = true ∧ c.offset + 1 ≤ c'.offset ∧ c'.offset < d.buf.length
            ∧ (c.ds.phase ≠ .awaitingPayload → c.offset + 2 ≤ c'.offset))
        ∧ ((deliverPass d c = .exit c' ∨ deliverPass d c = .abort c') →
          c.offset ≤ c'.offset ∧ c'.offset ≤ d.buf.length + 1))
    ∧ ∀ (d : Delivery) (v : Connection) (alloc : List Bool) (fuel : Nat), v.ds.Inv → v.ds.bound = true →
      d.buf.length + 1 ≤ fuel →
        deliverLoop d fuel (startCursor v alloc) = runDelivery d v alloc
          ∧ (runDelivery d v alloc).offset ≤ d.buf.length + 1

/-- 41_decode.md R113 to R126 taken together: where a first buffer raises no error, delivering a second one after it gives
what one DELIVER of both together gives, every allocation succeeding. (Equal error contexts in both runs: log entry
6.) -/
def Obligations.ErrorFreeBuffersConcatenate : Prop :=
  ∀ (s t u : State) (x y : List Byte) (mtu : Nat) (ax ay axy : List Bool),
    s.Inv → mtu ≤ 65535 → (∀ b ∈ ax, b = true) → (∀ b ∈ ay, b = true) → (∀ b ∈ axy, b = true) →
    exec (.deliver x mtu ax) s = .next t → (∀ e ∈ s.eventsSince t, e.errorKind = none) →
    exec (.deliver y mtu ay) t = .next u →
      ∃ u', exec (.deliver (x ++ y) mtu axy) s = .next u' ∧ u'.conns = u.conns ∧ s.eventsSince u' = s.eventsSince u

/-- 41_decode.md R130: a well-formed stream delivered whole emits every frame in order, and cut into buffers it does the same
with no error event and ends in AwaitingHeader if and only if no cut is a bad cut. -/
def Obligations.SplitBufferEquivalence : Prop :=
  ∀ (s : State) (units : List StreamUnit) (buffers : List (List Byte)) (mtu : Nat) (alloc : List Bool),
    s.Inv → s.connection.ds = .boundEmpty → mtu ≤ 65535 → (∀ x ∈ alloc, x = true) →
    (∀ u ∈ units, u.wellFormed mtu = true) → buffers.flatten = streamBytes units →
      ∃ whole parts,
        exec (.deliver (streamBytes units) mtu alloc) s = .next whole
          ∧ s.eventsSince whole = units.map (fun u => .frame u.payload)
          ∧ whole.connection.ds = .boundEmpty
          ∧ runDelivers mtu alloc buffers s = .next parts
          ∧ ((s.eventsSince parts = s.eventsSince whole ∧ parts.connection.ds.phase = .awaitingHeader)
              ↔ ∀ p ∈ cutPositions 0 buffers, badCut 0 units p = false)

/-- 41_decode.md R130: a bad cut always produces an InternalAccountingMismatch. -/
def Obligations.BadCutAlwaysRaisesAMismatch : Prop :=
  ∀ (s : State) (units : List StreamUnit) (buffers : List (List Byte)) (mtu : Nat) (alloc : List Bool) (p : Nat),
    s.Inv → s.connection.ds = .boundEmpty → mtu ≤ 65535 → (∀ x ∈ alloc, x = true) →
    (∀ u ∈ units, u.wellFormed mtu = true) → buffers.flatten = streamBytes units →
    p ∈ cutPositions 0 buffers → badCut 0 units p = true →
      ∃ parts, runDelivers mtu alloc buffers s = .next parts
        ∧ some .internalAccountingMismatch ∈ (s.eventsSince parts).map Event.errorKind

/-- 42_encode.md R149: what the decoder makes of an encoder output. (The error's context: log entry 6.) -/
def Obligations.LoopbackEmitsTheFrame : Prop :=
  ∀ (s : State) (frame : List Byte) (mps mtu : Nat) (alloc : List Bool),
    s.connection.ds = .boundEmpty → frame.length ≤ 2047 → 1 ≤ mps → mps ≤ 65535 → mtu ≤ 65535 →
    frame.length ≤ mtu + 18 → (∀ x ∈ alloc, x = true) →
      ∃ out, exec (.encode frame mps) s = .next (s.emit (.transmit out))
        ∧ (frame.length % 2 = 0 → (frame.length + 4) % mps ≠ 0 →
            exec (.deliver out mtu alloc) s
              = .next ((s.setConnection ⟨.boundEmpty, s.connection.draws⟩).emit (.trace [.frame frame])))
        ∧ (frame.length % 2 = 0 → (frame.length + 4) % mps = 0 →
            exec (.deliver out mtu alloc) s
              = .next ((s.setConnection ⟨.boundEmpty, s.connection.draws⟩).emit (.trace [.frame frame, .frame []])))
        ∧ (frame.length % 2 = 1 →
            exec (.deliver out mtu alloc) s
              = .next ((s.setConnection ⟨.boundEmpty, s.connection.draws + 1⟩).emit (.trace
                  [.frame frame, .error .internalAccountingMismatch (Config.errorContext s.conn s.connection.draws)])))

/-! ### Connections -/

/-- 20_memory.md R55 and 10_state.md R32: what a command does and returns depends on its own connection alone: its decode
state and its counter of error contexts. (That the contexts come out equal rests on drawing them by connection and counter,
log entry 6.) -/
def Obligations.CommandsReadOnlyTheirConnection : Prop :=
  ∀ (s s' : State) (i : Instr), connsWf s.conns = true → connsWf s'.conns = true → s'.conn = s.conn →
    s'.connection = s.connection →
      (∃ r, exec i s = .next (s.recordFault r) ∧ exec i s' = .next (s'.recordFault r))
        ∨ ∃ v o, exec i s = .next ((s.setConnection v).emit o) ∧ exec i s' = .next ((s'.setConnection v).emit o)

/-- 20_memory.md R55: no command changes another connection. -/
def Obligations.CommandsChangeOnlyTheirConnection : Prop :=
  ∀ (s t : State) (i : Instr), exec i s = .next t → State.OthersUnchanged s t

/-- 20_memory.md R55 and 60_exceptions.md R176: commands on two connections may run in either order; every connection ends the
same. -/
def Obligations.CommandsOnTwoConnectionsCommute : Prop :=
  ∀ (s t u : State) (c c' : Nat) (i i' : Instr), connsWf s.conns = true → c ≠ c' →
    exec i { s with conn := c } = .next t → exec i' { t with conn := c' } = .next u →
      ∃ t' u', exec i' { s with conn := c' } = .next t' ∧ exec i { t' with conn := c } = .next u' ∧ u'.conns = u.conns

/-- 30_encoding.md R64 and R75, 41_decode.md R122 to R124 and 20_memory.md R47: from any offset of a buffer, the header alone
says how far one pass reads: 4 + len + (len mod 2) bytes, an even number, of which the len after the header are the frame. -/
def Obligations.UnitLengthIsReadFromItsHeader : Prop :=
  ∀ (d : Delivery) (c : Cursor) (len : Nat), c.ds = .boundEmpty → headerValid (le32 d.buf c.offset) = true →
    (headerLen (le32 d.buf c.offset)).toNat = len → len ≤ d.mtu + 18 → c.alloc.head? ≠ some false →
    c.offset + 4 + len ≤ d.buf.length →
      ∃ c', (deliverPass d c = .again c' ∨ deliverPass d c = .exit c')
        ∧ c'.offset = c.offset + unitLength len ∧ unitLength len = 4 + len + len % 2 ∧ unitLength len % 2 = 0
        ∧ c'.ds = .boundEmpty ∧ c'.trace = c.trace ++ [.frame ((d.buf.drop (c.offset + 4)).take len)]
end

