-- ==== Sys2Proof/Laws/State.lean ====
section
/-! SUPPORT. What each update of a record leaves in each field. -/

namespace Sys2Proof.Machine

section
variable (s : State) (o : Output) (v : Connection) (cmd : Command)

@[simp] theorem State.emit_conns : (s.emit o).conns = s.conns := rfl
@[simp] theorem State.emit_conn : (s.emit o).conn = s.conn := rfl
@[simp] theorem State.emit_pending : (s.emit o).pending = s.pending := rfl
@[simp] theorem State.emit_outputs : (s.emit o).outputs = s.outputs ++ [⟨s.conn, o⟩] := rfl
@[simp] theorem State.setConnection_conns : (s.setConnection v).conns = storeConn s.conns s.conn v := rfl
@[simp] theorem State.setConnection_conn : (s.setConnection v).conn = s.conn := rfl
@[simp] theorem State.setConnection_pending : (s.setConnection v).pending = s.pending := rfl
@[simp] theorem State.setConnection_outputs : (s.setConnection v).outputs = s.outputs := rfl
@[simp] theorem State.emit_connection : (s.emit o).connection = s.connection := rfl
@[simp] theorem State.send_conns : (s.send cmd).conns = s.conns := rfl
@[simp] theorem State.send_conn : (s.send cmd).conn = s.conn := rfl
@[simp] theorem State.send_pending : (s.send cmd).pending = s.pending ++ [cmd] := rfl
@[simp] theorem State.send_outputs : (s.send cmd).outputs = s.outputs := rfl
@[simp] theorem State.send_connection : (s.send cmd).connection = s.connection := rfl

@[simp] theorem State.emit_faults : (s.emit o).faults = s.faults := rfl
@[simp] theorem State.setConnection_faults : (s.setConnection v).faults = s.faults := rfl
@[simp] theorem State.send_faults : (s.send cmd).faults = s.faults := rfl
@[simp] theorem State.recordFault_conns (r : Fault) : (s.recordFault r).conns = s.conns := rfl
@[simp] theorem State.recordFault_conn (r : Fault) : (s.recordFault r).conn = s.conn := rfl
@[simp] theorem State.recordFault_pending (r : Fault) : (s.recordFault r).pending = s.pending := rfl
@[simp] theorem State.recordFault_outputs (r : Fault) : (s.recordFault r).outputs = s.outputs := rfl
@[simp] theorem State.recordFault_faults (r : Fault) : (s.recordFault r).faults = s.faults ++ [⟨s.conn, r⟩] := rfl
@[simp] theorem State.recordFault_connection (r : Fault) : (s.recordFault r).connection = s.connection := rfl

theorem State.recordFault_send (r : Fault) : (s.send cmd).recordFault r = (s.recordFault r).send cmd := rfl
theorem State.emit_send : (s.send cmd).emit o = (s.emit o).send cmd := rfl
theorem State.setConnection_send : (s.send cmd).setConnection v = (s.setConnection v).send cmd := rfl

variable (c : Cursor)

@[simp] theorem State.endDelivery_conns :
    (s.endDelivery c).conns = storeConn s.conns s.conn ⟨c.ds, c.draws⟩ := rfl
@[simp] theorem State.endDelivery_conn : (s.endDelivery c).conn = s.conn := rfl
@[simp] theorem State.endDelivery_pending : (s.endDelivery c).pending = s.pending := rfl
@[simp] theorem State.endDelivery_faults : (s.endDelivery c).faults = s.faults := rfl
@[simp] theorem State.endDelivery_outputs :
    (s.endDelivery c).outputs = s.outputs ++ [⟨s.conn, .trace c.trace⟩] := rfl
end

section
variable (ds : DecodeState)

@[simp] theorem DecodeState.resetDs_bound : ds.resetDs.bound = ds.bound := rfl
@[simp] theorem DecodeState.resetDs_phase : ds.resetDs.phase = .awaitingHeader := rfl
@[simp] theorem DecodeState.resetDs_lowHalf : ds.resetDs.lowHalf = 0#16 := rfl
@[simp] theorem DecodeState.resetDs_target : ds.resetDs.target = 0#11 := rfl
@[simp] theorem DecodeState.resetDs_received : ds.resetDs.received = 0#11 := rfl
@[simp] theorem DecodeState.resetDs_frame : ds.resetDs.frame = none := rfl
end

section
variable (c : Cursor) (d : Delivery) (k : ErrorKind) (n : Nat) (h : Half) (len : Len) (b : List Byte)

@[simp] theorem Cursor.emitFrame_ds : (c.emitFrame b).ds = c.ds := rfl
@[simp] theorem Cursor.emitFrame_draws : (c.emitFrame b).draws = c.draws := rfl
@[simp] theorem Cursor.emitFrame_offset : (c.emitFrame b).offset = c.offset := rfl
@[simp] theorem Cursor.emitFrame_alloc : (c.emitFrame b).alloc = c.alloc := rfl
@[simp] theorem Cursor.emitFrame_trace : (c.emitFrame b).trace = c.trace ++ [.frame b] := rfl
@[simp] theorem Cursor.raise_ds : (c.raise d k).ds = c.ds.resetDs := rfl
@[simp] theorem Cursor.raise_draws : (c.raise d k).draws = c.draws + 1 := rfl
@[simp] theorem Cursor.raise_offset : (c.raise d k).offset = c.offset := rfl
@[simp] theorem Cursor.raise_alloc : (c.raise d k).alloc = c.alloc := rfl
@[simp] theorem Cursor.raise_trace :
    (c.raise d k).trace = c.trace ++ [.error k (Config.errorContext d.conn c.draws)] := rfl
@[simp] theorem Cursor.advance_ds : (c.advance n).ds = c.ds := rfl
@[simp] theorem Cursor.advance_draws : (c.advance n).draws = c.draws := rfl
@[simp] theorem Cursor.advance_offset : (c.advance n).offset = c.offset + n := rfl
@[simp] theorem Cursor.advance_alloc : (c.advance n).alloc = c.alloc := rfl
@[simp] theorem Cursor.advance_trace : (c.advance n).trace = c.trace := rfl
@[simp] theorem Cursor.leaveSplit_ds :
    c.leaveSplit.ds = { c.ds with phase := .awaitingHeader, lowHalf := 0#16 } := rfl
@[simp] theorem Cursor.leaveSplit_draws : c.leaveSplit.draws = c.draws := rfl
@[simp] theorem Cursor.leaveSplit_offset : c.leaveSplit.offset = c.offset := rfl
@[simp] theorem Cursor.leaveSplit_alloc : c.leaveSplit.alloc = c.alloc := rfl
@[simp] theorem Cursor.leaveSplit_trace : c.leaveSplit.trace = c.trace := rfl
@[simp] theorem Cursor.holdHalf_ds :
    (c.holdHalf h).ds = { c.ds with phase := .headerSplit, lowHalf := h } := rfl
@[simp] theorem Cursor.holdHalf_draws : (c.holdHalf h).draws = c.draws := rfl
@[simp] theorem Cursor.holdHalf_offset : (c.holdHalf h).offset = c.offset := rfl
@[simp] theorem Cursor.holdHalf_alloc : (c.holdHalf h).alloc = c.alloc := rfl
@[simp] theorem Cursor.holdHalf_trace : (c.holdHalf h).trace = c.trace := rfl
@[simp] theorem Cursor.startPayload_ds :
    (c.startPayload len).ds
      = { c.ds with phase := .awaitingPayload, target := len, received := 0#11, frame := some [] } := rfl
@[simp] theorem Cursor.startPayload_draws : (c.startPayload len).draws = c.draws := rfl
@[simp] theorem Cursor.startPayload_offset : (c.startPayload len).offset = c.offset := rfl
@[simp] theorem Cursor.startPayload_alloc : (c.startPayload len).alloc = c.alloc := rfl
@[simp] theorem Cursor.startPayload_trace : (c.startPayload len).trace = c.trace := rfl
@[simp] theorem copyPayload_draws : (copyPayload d c).draws = c.draws := rfl
@[simp] theorem copyPayload_offset : (copyPayload d c).offset = c.offset + copyCount d c := rfl
@[simp] theorem copyPayload_alloc : (copyPayload d c).alloc = c.alloc := rfl
@[simp] theorem copyPayload_trace : (copyPayload d c).trace = c.trace := rfl
@[simp] theorem copyPayload_bound : (copyPayload d c).ds.bound = c.ds.bound := rfl
@[simp] theorem copyPayload_phase : (copyPayload d c).ds.phase = c.ds.phase := rfl
@[simp] theorem copyPayload_lowHalf : (copyPayload d c).ds.lowHalf = c.ds.lowHalf := rfl
@[simp] theorem copyPayload_target : (copyPayload d c).ds.target = c.ds.target := rfl
@[simp] theorem copyPayload_received :
    (copyPayload d c).ds.received = BitVec.ofNat 11 (c.ds.received.toNat + copyCount d c) := rfl
@[simp] theorem copyPayload_frame :
    (copyPayload d c).ds.frame = some (c.ds.frame.getD [] ++ (d.buf.drop c.offset).take (copyCount d c)) := rfl
end

@[simp] theorem startCursor_ds (v : Connection) (l : List Bool) : (startCursor v l).ds = v.ds := rfl
@[simp] theorem startCursor_draws (v : Connection) (l : List Bool) : (startCursor v l).draws = v.draws := rfl
@[simp] theorem startCursor_offset (v : Connection) (l : List Bool) : (startCursor v l).offset = 0 := rfl
@[simp] theorem startCursor_alloc (v : Connection) (l : List Bool) : (startCursor v l).alloc = l := rfl
@[simp] theorem startCursor_trace (v : Connection) (l : List Bool) : (startCursor v l).trace = [] := rfl

end Sys2Proof.Machine
end

