-- ==== Sys2Proof/Laws/Bytes.lean ====
section
/-! SUPPORT. Reads of byte sequences: which bytes a read sees, and what the little-endian reads make of the bytes of a
word. -/

namespace Sys2Proof.Machine

theorem byteAt_append_right (pre suf : List Byte) (i : Nat) : byteAt (pre ++ suf) (pre.length + i) = byteAt suf i := by
  simp [byteAt, List.getD_eq_getElem?_getD, List.getElem?_append_right]

theorem byteAt_append_left {pre : List Byte} (suf : List Byte) {i : Nat} (h : i < pre.length) :
    byteAt (pre ++ suf) i = byteAt pre i := by
  simp [byteAt, List.getD_eq_getElem?_getD, List.getElem?_append_left h]

theorem le16_append_right (pre suf : List Byte) (i : Nat) : le16 (pre ++ suf) (pre.length + i) = le16 suf i := by
  simp only [le16, byteAt_append_right, Nat.add_assoc]

theorem le32_append_right (pre suf : List Byte) (i : Nat) : le32 (pre ++ suf) (pre.length + i) = le32 suf i := by
  simp only [le32, byteAt_append_right, Nat.add_assoc]

/-- A 16-bit read sees two bytes, so what follows them does not matter. -/
theorem le16_append_left {pre : List Byte} (suf : List Byte) {i : Nat} (h : i + 1 < pre.length) :
    le16 (pre ++ suf) i = le16 pre i := by
  simp only [le16, byteAt_append_left suf (show i < pre.length by omega), byteAt_append_left suf h]

/-- A 32-bit read sees four bytes, so what follows them does not matter. -/
theorem le32_append_left {pre : List Byte} (suf : List Byte) {i : Nat} (h : i + 3 < pre.length) :
    le32 (pre ++ suf) i = le32 pre i := by
  simp only [le32, byteAt_append_left suf (show i < pre.length by omega),
    byteAt_append_left suf (show i + 1 < pre.length by omega),
    byteAt_append_left suf (show i + 2 < pre.length by omega), byteAt_append_left suf h]

@[simp] theorem bytes32LE_length (w : Word) : (bytes32LE w).length = 4 := rfl

/-- Reading the four bytes of a word gives the word. -/
theorem le32_bytes32LE (w : Word) (rest : List Byte) : le32 (bytes32LE w ++ rest) 0 = w := by
  simp only [le32, byteAt, bytes32LE, List.getD_eq_getElem?_getD, List.cons_append, List.getElem?_cons_zero,
    List.getElem?_cons_succ, Option.getD_some, Nat.zero_add]
  ext i hi
  simp only [BitVec.getElem_or, BitVec.getElem_setWidth, BitVec.getElem_shiftLeft, BitVec.getLsbD_extractLsb']
  have : i < 8 ∨ (8 ≤ i ∧ i < 16) ∨ (16 ≤ i ∧ i < 24) ∨ (24 ≤ i ∧ i < 32) := by omega
  rcases this with h | h | h | h <;> simp [BitVec.getLsbD_eq_getElem, hi] <;> grind

/-- Reading the last two bytes of a word gives its high half. -/
theorem le16_high_bytes32LE (w : Word) (rest : List Byte) :
    le16 ((bytes32LE w).drop 2 ++ rest) 0 = w.extractLsb' 16 16 := by
  simp only [le16, byteAt, bytes32LE, List.getD_eq_getElem?_getD, List.drop_succ_cons, List.drop_zero, List.cons_append,
    List.getElem?_cons_zero, List.getElem?_cons_succ, Option.getD_some, Nat.zero_add]
  ext i hi
  simp only [BitVec.getElem_or, BitVec.getElem_setWidth, BitVec.getElem_shiftLeft, BitVec.getLsbD_extractLsb',
    BitVec.getElem_extractLsb']
  have : i < 8 ∨ (8 ≤ i ∧ i < 16) := by omega
  rcases this with h | h <;> grind

/-- The two halves of a word assemble to the word. -/
theorem splitHeader_halves (w : Word) : splitHeader (w.extractLsb' 0 16) (w.extractLsb' 16 16) = w := by
  unfold splitHeader
  ext i hi
  simp only [BitVec.getElem_or, BitVec.getElem_setWidth, BitVec.getElem_shiftLeft, BitVec.getLsbD_extractLsb']
  have : i < 16 ∨ (16 ≤ i ∧ i < 32) := by omega
  rcases this with h | h <;> simp [BitVec.getLsbD_eq_getElem, hi] <;> grind

end Sys2Proof.Machine
end

