-- ==== Sys2Proof/Laws/Conns.lean ====
section
/-! SUPPORT. The map of connections: what a lookup finds after a store, and that a store keeps the canonical form. -/

namespace Sys2Proof.Machine

theorem lookupConn_consConn (c k : Nat) (v : Connection) (rest : List (Nat × Connection))
    (hrest : c = k → lookupConn rest k = Connection.fresh) :
    lookupConn (consConn c v rest) k = if c = k then v else lookupConn rest k := by
  unfold consConn
  split
  · rename_i hv
    by_cases h : c = k
    · simp [h, hv, hrest h]
    · simp [h]
  · simp [lookupConn]

theorem connsWfFrom_mono {low low' : Nat} (h : low ≤ low') {l : List (Nat × Connection)}
    (hl : connsWfFrom low' l = true) : connsWfFrom low l = true := by
  cases l with
  | nil => rfl
  | cons e rest =>
    simp only [connsWfFrom, Bool.and_eq_true, decide_eq_true_eq] at hl ⊢
    exact ⟨⟨by omega, hl.1.2⟩, hl.2⟩

/-- A number below every listed one is not listed. -/
theorem lookupConn_below {low : Nat} {l : List (Nat × Connection)} (hl : connsWfFrom low l = true) {c : Nat}
    (hc : c < low) : lookupConn l c = Connection.fresh := by
  induction l generalizing low with
  | nil => rfl
  | cons e rest ih =>
    simp only [connsWfFrom, Bool.and_eq_true, decide_eq_true_eq] at hl
    have hne : e.1 ≠ c := by omega
    simpa [lookupConn, hne] using ih hl.2 (by omega)

theorem connsWfFrom_consConn {low c : Nat} (h : low ≤ c) {v : Connection} {rest : List (Nat × Connection)}
    (hrest : connsWfFrom (c + 1) rest = true) : connsWfFrom low (consConn c v rest) = true := by
  unfold consConn
  split
  · exact connsWfFrom_mono (by omega) hrest
  · rename_i hv
    simp [connsWfFrom, h, hv, hrest]

/-- Storing a connection keeps the canonical form. -/
theorem storeConn_keeps_wfFrom {low c : Nat} (h : low ≤ c) (v : Connection) {l : List (Nat × Connection)}
    (hl : connsWfFrom low l = true) : connsWfFrom low (storeConn l c v) = true := by
  induction l generalizing low with
  | nil => exact connsWfFrom_consConn h rfl
  | cons e rest ih =>
    obtain ⟨k, u⟩ := e
    simp only [connsWfFrom, Bool.and_eq_true, decide_eq_true_eq] at hl
    obtain ⟨⟨hk, hu⟩, hr⟩ := hl
    simp only [storeConn]
    split
    · rename_i hkc
      simp only [connsWfFrom, Bool.and_eq_true, decide_eq_true_eq]
      exact ⟨⟨hk, hu⟩, ih (by omega) hr⟩
    · split
      · rename_i hkc
        exact connsWfFrom_consConn h (hkc ▸ hr)
      · refine connsWfFrom_consConn h ?_
        simp only [connsWfFrom, Bool.and_eq_true, decide_eq_true_eq]
        exact ⟨⟨by omega, hu⟩, hr⟩

theorem storeConn_keeps_wf (c : Nat) (v : Connection) {l : List (Nat × Connection)} (hl : connsWf l = true) :
    connsWf (storeConn l c v) = true :=
  storeConn_keeps_wfFrom (Nat.zero_le c) v hl

theorem lookupConn_storeConn_other {c k : Nat} (hck : k ≠ c) (v : Connection) (l : List (Nat × Connection)) :
    lookupConn (storeConn l c v) k = lookupConn l k := by
  induction l with
  | nil =>
    rw [storeConn, lookupConn_consConn _ _ _ _ fun _ => rfl]
    simp [Ne.symm hck]
  | cons e rest ih =>
    obtain ⟨j, u⟩ := e
    simp only [storeConn]
    split
    · simp [lookupConn, ih]
    · split
      · rename_i hj
        have : j ≠ k := fun h => hck (h ▸ hj)
        simp [lookupConn_consConn, Ne.symm hck, lookupConn, this]
      · simp [lookupConn_consConn, Ne.symm hck]

/-- A lookup of the number stored at finds what was stored, in a canonical map. -/
theorem lookupConn_storeConn_same_from {low c : Nat} (v : Connection) {l : List (Nat × Connection)}
    (hl : connsWfFrom low l = true) : lookupConn (storeConn l c v) c = v := by
  induction l generalizing low with
  | nil =>
    rw [storeConn, lookupConn_consConn _ _ _ _ fun _ => rfl]
    simp
  | cons e rest ih =>
    obtain ⟨j, u⟩ := e
    have hl' := hl
    simp only [connsWfFrom, Bool.and_eq_true, decide_eq_true_eq] at hl
    simp only [storeConn]
    split
    · rename_i hj
      have : j ≠ c := by omega
      simp [lookupConn, this, ih hl.2]
    · split
      · rename_i hj
        rw [lookupConn_consConn]
        · simp
        · intro _
          exact lookupConn_below hl.2 (by omega)
      · rename_i h1 h2
        rw [lookupConn_consConn]
        · simp
        · intro _
          have : j ≠ c := h2
          simp only [lookupConn, this, if_false]
          exact lookupConn_below hl.2 (by omega)

theorem lookupConn_storeConn_same (c : Nat) (v : Connection) {l : List (Nat × Connection)} (hl : connsWf l = true) :
    lookupConn (storeConn l c v) c = v :=
  lookupConn_storeConn_same_from v hl

/-- Equal contents, equal maps: the canonical form is unique. -/
theorem connsWfFrom_ext {low : Nat} {l m : List (Nat × Connection)} (hl : connsWfFrom low l = true)
    (hm : connsWfFrom low m = true) (h : ∀ c, lookupConn l c = lookupConn m c) : l = m := by
  induction l generalizing low m with
  | nil =>
    cases m with
    | nil => rfl
    | cons e rest =>
      obtain ⟨k, u⟩ := e
      simp only [connsWfFrom, Bool.and_eq_true, decide_eq_true_eq] at hm
      have := h k
      simp only [lookupConn, if_true] at this
      exact absurd this.symm hm.1.2
  | cons e rest ih =>
    obtain ⟨k, u⟩ := e
    have hl' := hl
    simp only [connsWfFrom, Bool.and_eq_true, decide_eq_true_eq] at hl
    cases m with
    | nil =>
      have := h k
      simp only [lookupConn, if_true] at this
      exact absurd this hl.1.2
    | cons e' rest' =>
      obtain ⟨k', u'⟩ := e'
      have hm' := hm
      simp only [connsWfFrom, Bool.and_eq_true, decide_eq_true_eq] at hm
      have hk : k = k' := by
        by_contra hne
        rcases Nat.lt_or_gt_of_ne hne with hlt | hlt
        · have := h k
          simp only [lookupConn, if_true, Ne.symm hne, if_false] at this
          rw [lookupConn_below hm.2 (by omega)] at this
          exact hl.1.2 this
        · have := h k'
          simp only [lookupConn, if_true, hne, if_false] at this
          rw [lookupConn_below hl.2 (by omega)] at this
          exact hm.1.2 this.symm
      subst hk
      have hu : u = u' := by simpa [lookupConn] using h k
      subst hu
      have hrest : rest = rest' := by
        refine ih hl.2 hm.2 fun c => ?_
        by_cases hc : k = c
        · subst hc
          rw [lookupConn_below hl.2 (by omega), lookupConn_below hm.2 (by omega)]
        · simpa [lookupConn, hc] using h c
      rw [hrest]

theorem connsWf_ext {l m : List (Nat × Connection)} (hl : connsWf l = true) (hm : connsWf m = true)
    (h : ∀ c, lookupConn l c = lookupConn m c) : l = m :=
  connsWfFrom_ext hl hm h

/-- Storing what a lookup finds changes nothing. -/
theorem storeConn_lookupConn {l : List (Nat × Connection)} (hl : connsWf l = true) (c : Nat) :
    storeConn l c (lookupConn l c) = l := by
  refine connsWf_ext (storeConn_keeps_wf c _ hl) hl fun k => ?_
  by_cases hk : k = c
  · subst hk
    exact lookupConn_storeConn_same _ _ hl
  · exact lookupConn_storeConn_other hk _ _

theorem mem_storeConn {l : List (Nat × Connection)} {c : Nat} {v : Connection} {e : Nat × Connection}
    (h : e ∈ storeConn l c v) : e ∈ l ∨ e = (c, v) := by
  have cons_cases : ∀ {rest : List (Nat × Connection)}, e ∈ consConn c v rest → e ∈ rest ∨ e = (c, v) := by
    intro rest h
    unfold consConn at h
    split at h
    · exact .inl h
    · rcases List.mem_cons.mp h with h | h
      · exact .inr h
      · exact .inl h
  induction l with
  | nil => exact cons_cases h
  | cons x rest ih =>
    obtain ⟨k, u⟩ := x
    simp only [storeConn] at h
    split at h
    · rcases List.mem_cons.mp h with h | h
      · exact .inl (h ▸ List.mem_cons_self)
      · exact (ih h).imp_left (List.mem_cons_of_mem _)
    · split at h
      · exact (cons_cases h).imp_left (List.mem_cons_of_mem _)
      · exact cons_cases h

theorem lookupConn_mem_or_fresh (l : List (Nat × Connection)) (c : Nat) :
    (∃ e ∈ l, e.2 = lookupConn l c) ∨ lookupConn l c = Connection.fresh := by
  induction l with
  | nil => exact .inr rfl
  | cons e rest ih =>
    obtain ⟨k, u⟩ := e
    by_cases h : k = c
    · exact .inl ⟨(k, u), List.mem_cons_self, by simp [lookupConn, h]⟩
    · simp only [lookupConn, h, if_false]
      rcases ih with ⟨e, he, h2⟩ | h2
      · exact .inl ⟨e, List.mem_cons_of_mem _ he, h2⟩
      · exact .inr h2

theorem Connection.fresh_inv : Connection.fresh.ds.Inv := by decide

/-- Every connection of a state that meets the invariant meets its own, listed or not. -/
theorem State.Inv.lookup {s : State} (h : s.Inv) (c : Nat) : (lookupConn s.conns c).ds.Inv := by
  rcases lookupConn_mem_or_fresh s.conns c with ⟨e, he, h2⟩ | h2
  · exact h2 ▸ h.2 e he
  · exact h2 ▸ Connection.fresh_inv

theorem State.Inv.connection {s : State} (h : s.Inv) : s.connection.ds.Inv := h.lookup s.conn

theorem State.Inv.setConnection {s : State} (h : s.Inv) {v : Connection} (hv : v.ds.Inv) :
    (s.setConnection v).Inv := by
  refine ⟨storeConn_keeps_wf _ _ h.1, fun e he => ?_⟩
  rcases mem_storeConn he with he | he
  · exact h.2 e he
  · exact he ▸ hv

theorem State.Inv.emit {s : State} (h : s.Inv) (o : Output) : (s.emit o).Inv := h

theorem State.Inv.recordFault {s : State} (h : s.Inv) (r : Fault) : (s.recordFault r).Inv := h

theorem State.setConnection_connection {s : State} (h : connsWf s.conns = true) (v : Connection) :
    (s.setConnection v).connection = v :=
  lookupConn_storeConn_same _ _ h

theorem State.setConnection_self {s : State} (h : connsWf s.conns = true) : s.setConnection s.connection = s := by
  cases s
  simp only [State.setConnection, State.connection]
  congr
  exact storeConn_lookupConn h _

theorem State.setConnection_others (s : State) (v : Connection) : State.OthersUnchanged s (s.setConnection v) :=
  ⟨rfl, rfl, fun _ hc => lookupConn_storeConn_other hc _ _⟩

theorem State.emit_others {s t : State} (h : State.OthersUnchanged s t) (o : Output) :
    State.OthersUnchanged s (t.emit o) := h

theorem State.recordFault_others (s : State) (r : Fault) : State.OthersUnchanged s (s.recordFault r) :=
  ⟨rfl, rfl, fun _ _ => rfl⟩

end Sys2Proof.Machine
end

