-- ==== Sys2Proof/Laws/Deliver.lean ====
section
/-! SUPPORT. What the steps of a DELIVER do: each step in each of its cases, what one pass can lead to, and one induction
over the loop. -/

namespace Sys2Proof.Machine

/-! ### Reading a header -/

section
variable {d : Delivery} {c : Cursor}

/-- 41_decode.md R112. -/
theorem readHeader_short (h : d.buf.length < c.offset + 2) : readHeader d c = .exit c := by
  simp [readHeader, h]

/-- 41_decode.md R113. -/
theorem readHeader_second_half (h : c.offset + 2 ≤ d.buf.length) (hp : c.ds.phase = .headerSplit) :
    readHeader d c = .word (splitHeader c.ds.lowHalf (le16 d.buf c.offset)) (c.leaveSplit.advance 2) := by
  simp [readHeader, hp, Nat.not_lt.mpr h]

/-- 41_decode.md R114. -/
theorem readHeader_first_half (h : d.buf.length = c.offset + 2) (hp : c.ds.phase ≠ .headerSplit) :
    readHeader d c = .exit ((c.holdHalf (le16 d.buf c.offset)).advance 2) := by
  simp [readHeader, hp, h]

/-- 41_decode.md R116. -/
theorem readHeader_three (h : d.buf.length = c.offset + 3) (hp : c.ds.phase ≠ .headerSplit) :
    readHeader d c = .abort (c.raise d .internalAccountingMismatch) := by
  simp [readHeader, hp, h]

/-- 41_decode.md R115. -/
theorem readHeader_whole (h : c.offset + 4 ≤ d.buf.length) (hp : c.ds.phase ≠ .headerSplit) :
    readHeader d c = .word (le32 d.buf c.offset) (c.advance 4) := by
  have h1 : ¬ d.buf.length < c.offset + 2 := by omega
  have h2 : ¬ d.buf.length = c.offset + 2 := by omega
  have h3 : ¬ d.buf.length = c.offset + 3 := by omega
  simp [readHeader, hp, h1, h2, h3, wholeHeader]

/-- Everything reading a header can do. -/
theorem readHeader_cases (d : Delivery) (c : Cursor) :
    (d.buf.length < c.offset + 2 ∧ readHeader d c = .exit c)
      ∨ (c.offset + 2 ≤ d.buf.length ∧ c.ds.phase = .headerSplit
          ∧ readHeader d c = .word (splitHeader c.ds.lowHalf (le16 d.buf c.offset)) (c.leaveSplit.advance 2))
      ∨ (d.buf.length = c.offset + 2 ∧ c.ds.phase ≠ .headerSplit
          ∧ readHeader d c = .exit ((c.holdHalf (le16 d.buf c.offset)).advance 2))
      ∨ (d.buf.length = c.offset + 3 ∧ c.ds.phase ≠ .headerSplit
          ∧ readHeader d c = .abort (c.raise d .internalAccountingMismatch))
      ∨ (c.offset + 4 ≤ d.buf.length ∧ c.ds.phase ≠ .headerSplit
          ∧ readHeader d c = .word (le32 d.buf c.offset) (c.advance 4)) := by
  by_cases h1 : d.buf.length < c.offset + 2
  · exact .inl ⟨h1, readHeader_short h1⟩
  · by_cases hp : c.ds.phase = .headerSplit
    · exact .inr (.inl ⟨by omega, hp, readHeader_second_half (by omega) hp⟩)
    · by_cases h2 : d.buf.length = c.offset + 2
      · exact .inr (.inr (.inl ⟨h2, hp, readHeader_first_half h2 hp⟩))
      · by_cases h3 : d.buf.length = c.offset + 3
        · exact .inr (.inr (.inr (.inl ⟨h3, hp, readHeader_three h3 hp⟩)))
        · exact .inr (.inr (.inr (.inr ⟨by omega, hp, readHeader_whole (by omega) hp⟩)))

/-! ### Accepting a header -/

/-- The cursor after one allocation draw: the outcomes not yet drawn lose their first. -/
theorem Cursor.drawAlloc_snd (c : Cursor) : c.drawAlloc.2 = { c with alloc := c.alloc.tail } := by
  obtain ⟨_, _, _, alloc, _⟩ := c
  cases alloc <;> rfl

theorem Cursor.drawAlloc_fst (c : Cursor) : c.drawAlloc.1 = c.alloc.headD true := by
  obtain ⟨_, _, _, alloc, _⟩ := c
  cases alloc <;> rfl

theorem sizeBound_eq (mtu : Nat) : sizeBound mtu = mtu + 18 := rfl

/-- 41_decode.md R117. -/
theorem acceptHeader_invalid {w : Word} (h : headerValid w = false) :
    acceptHeader d w c = .abort (c.raise d .badHeaderChecksum) := by
  simp [acceptHeader, h]

/-- 41_decode.md R118. -/
theorem acceptHeader_oversized {w : Word} (h : headerValid w = true) (hs : d.mtu + 18 < (headerLen w).toNat) :
    acceptHeader d w c = .abort (c.raise d .oversizedFrame) := by
  simp [acceptHeader, h, sizeBound_eq, hs]

/-- 41_decode.md R119, a false draw. -/
theorem acceptHeader_unallocated {w : Word} (h : headerValid w = true) (hs : (headerLen w).toNat ≤ d.mtu + 18)
    (ha : c.alloc.headD true = false) :
    acceptHeader d w c = .abort (({ c with alloc := c.alloc.tail } : Cursor).raise d .allocationFailure) := by
  have h1 : c.drawAlloc = (false, { c with alloc := c.alloc.tail }) :=
    Prod.ext (c.drawAlloc_fst.trans ha) c.drawAlloc_snd
  simp [acceptHeader, h, sizeBound_eq, Nat.not_lt.mpr hs, allocate, h1]

/-- 41_decode.md R119, a true draw, and R120. -/
theorem acceptHeader_accepted {w : Word} (h : headerValid w = true) (hs : (headerLen w).toNat ≤ d.mtu + 18)
    (ha : c.alloc.headD true = true) :
    acceptHeader d w c = .again (({ c with alloc := c.alloc.tail } : Cursor).startPayload (headerLen w)) := by
  have h1 : c.drawAlloc = (true, { c with alloc := c.alloc.tail }) :=
    Prod.ext (c.drawAlloc_fst.trans ha) c.drawAlloc_snd
  simp [acceptHeader, h, sizeBound_eq, Nat.not_lt.mpr hs, allocate, h1]

/-- Everything accepting a header can do: in the order of the checks (60_exceptions.md R166), an abort with one error
event, or the start of the payload. -/
theorem acceptHeader_cases (d : Delivery) (w : Word) (c : Cursor) :
    (headerValid w = false ∧ acceptHeader d w c = .abort (c.raise d .badHeaderChecksum))
      ∨ (headerValid w = true ∧ d.mtu + 18 < (headerLen w).toNat
          ∧ acceptHeader d w c = .abort (c.raise d .oversizedFrame))
      ∨ (headerValid w = true ∧ (headerLen w).toNat ≤ d.mtu + 18 ∧ c.alloc.headD true = false
          ∧ acceptHeader d w c = .abort (({ c with alloc := c.alloc.tail } : Cursor).raise d .allocationFailure))
      ∨ (headerValid w = true ∧ (headerLen w).toNat ≤ d.mtu + 18 ∧ c.alloc.headD true = true
          ∧ acceptHeader d w c
            = .again (({ c with alloc := c.alloc.tail } : Cursor).startPayload (headerLen w))) := by
  cases hv : headerValid w with
  | false => exact .inl ⟨rfl, acceptHeader_invalid hv⟩
  | true =>
    by_cases hs : (headerLen w).toNat ≤ d.mtu + 18
    · cases ha : c.alloc.headD true with
      | false => exact .inr (.inr (.inl ⟨rfl, hs, rfl, acceptHeader_unallocated hv hs ha⟩))
      | true => exact .inr (.inr (.inr ⟨rfl, hs, rfl, acceptHeader_accepted hv hs ha⟩))
    · exact .inr (.inl ⟨rfl, by omega, acceptHeader_oversized hv (by omega)⟩)

/-! ### Payload -/

theorem copyCount_le (d : Delivery) (c : Cursor) : copyCount d c ≤ d.buf.length - c.offset := Nat.min_le_left _ _

/-- The count of received bytes never wraps. -/
theorem copyPayload_received_toNat (h : c.ds.received.toNat ≤ c.ds.target.toNat) :
    (copyPayload d c).ds.received.toNat = c.ds.received.toNat + copyCount d c := by
  have ht := c.ds.target.isLt
  have : copyCount d c ≤ c.ds.target.toNat - c.ds.received.toNat := Nat.min_le_right _ _
  rw [copyPayload_received, BitVec.toNat_ofNat, Nat.mod_eq_of_lt (by omega)]

/-- The cursor after a frame is complete (41_decode.md R123, R124). -/
def Cursor.finish (c : Cursor) : Cursor :=
  { (c.emitFrame (c.ds.frame.getD [])).advance (c.ds.target.toNat % 2) with
    ds := { c.ds with phase := .awaitingHeader, target := 0#11, received := 0#11, frame := none } }

@[simp] theorem Cursor.finish_ds (c : Cursor) :
    c.finish.ds = { c.ds with phase := .awaitingHeader, target := 0#11, received := 0#11, frame := none } := rfl
@[simp] theorem Cursor.finish_draws (c : Cursor) : c.finish.draws = c.draws := rfl
@[simp] theorem Cursor.finish_offset (c : Cursor) : c.finish.offset = c.offset + c.ds.target.toNat % 2 := rfl
@[simp] theorem Cursor.finish_alloc (c : Cursor) : c.finish.alloc = c.alloc := rfl
@[simp] theorem Cursor.finish_trace (c : Cursor) : c.finish.trace = c.trace ++ [.frame (c.ds.frame.getD [])] := rfl

theorem completeFrame_complete (h : c.ds.received = c.ds.target) : completeFrame c = c.finish := by
  simp [completeFrame, h, Cursor.finish]

theorem completeFrame_incomplete (h : c.ds.received ≠ c.ds.target) : completeFrame c = c := by
  simp [completeFrame, h]

/-- The last payload bytes are in the buffer: the frame is completed (41_decode.md R122 to R124). -/
theorem payloadStage_complete (h : c.ds.received.toNat ≤ c.ds.target.toNat)
    (hL : c.offset + (c.ds.target.toNat - c.ds.received.toNat) ≤ d.buf.length) :
    payloadStage d c = loopBack d (copyPayload d c).finish := by
  rw [payloadStage, completeFrame_complete]
  apply BitVec.eq_of_toNat_eq
  rw [copyPayload_received_toNat h, copyPayload_target, copyCount]
  omega

/-- The buffer ends before the payload does: all of it is copied and the loop ends at its end (41_decode.md R122, R123,
R125). -/
theorem payloadStage_incomplete (h : c.ds.received.toNat ≤ c.ds.target.toNat)
    (hL : d.buf.length < c.offset + (c.ds.target.toNat - c.ds.received.toNat)) (ho : c.offset ≤ d.buf.length) :
    payloadStage d c = .exit (copyPayload d c) := by
  have hn : copyCount d c = d.buf.length - c.offset := by rw [copyCount]; omega
  rw [payloadStage, completeFrame_incomplete, loopBack, if_pos]
  · rw [copyPayload_offset, hn]; omega
  · intro he
    have := copyPayload_received_toNat (d := d) h
    rw [he, copyPayload_target, hn] at this
    omega

/-! ### One pass -/

theorem deliverPass_payload (h : c.ds.phase = .awaitingPayload) : deliverPass d c = payloadStage d c := by
  simp [deliverPass, h]

theorem deliverPass_header (h : c.ds.phase ≠ .awaitingPayload) : deliverPass d c = headerStage d c := by
  simp [deliverPass, h]

theorem headerStage_exit {c' : Cursor} (h : readHeader d c = .exit c') : headerStage d c = .exit c' := by
  simp [headerStage, h]

theorem headerStage_abort {c' : Cursor} (h : readHeader d c = .abort c') : headerStage d c = .abort c' := by
  simp [headerStage, h]

theorem headerStage_refused {w : Word} {c' c'' : Cursor} (h : readHeader d c = .word w c')
    (ha : acceptHeader d w c' = .abort c'') : headerStage d c = .abort c'' := by
  simp [headerStage, h, ha]

theorem headerStage_accepted {w : Word} {c' c'' : Cursor} (h : readHeader d c = .word w c')
    (ha : acceptHeader d w c' = .again c'') : headerStage d c = payloadStage d c'' := by
  simp [headerStage, h, ha]

/-- The four errors that end a DELIVER from within a pass leave the decode state reset and one error event last. -/
def Cursor.Aborted (d : Delivery) (c c' : Cursor) : Prop :=
  ∃ k, c'.ds = c.ds.resetDs ∧ c'.draws = c.draws + 1
    ∧ c'.trace = c.trace ++ [.error k (Config.errorContext d.conn c.draws)]

/-- What a step of the loop that is no error leaves: the binding and the draws as they were, the trace longer by frames
only. -/
def Cursor.GoesOn (c c' : Cursor) : Prop :=
  c'.ds.bound = c.ds.bound ∧ c'.draws = c.draws ∧ ∃ fs : List (List Byte), c'.trace = c.trace ++ fs.map .frame

theorem Cursor.GoesOn.refl (c : Cursor) : c.GoesOn c := ⟨rfl, rfl, [], by simp⟩

theorem Cursor.GoesOn.trans {a b c : Cursor} (h : a.GoesOn b) (g : b.GoesOn c) : a.GoesOn c := by
  obtain ⟨h1, h2, fs, h3⟩ := h
  obtain ⟨g1, g2, gs, g3⟩ := g
  exact ⟨g1.trans h1, g2.trans h2, fs ++ gs, by simp [g3, h3]⟩

/-- What a step of the loop leads to, for every state. -/
def Flow.From (d : Delivery) (c : Cursor) : Flow → Prop
  | .again c' => c.GoesOn c'
  | .exit c' => c.GoesOn c'
  | .abort c' => c.Aborted d c'

theorem payloadStage_from (d : Delivery) (c : Cursor) : (payloadStage d c).From d c := by
  have hcopy : c.GoesOn (copyPayload d c) := ⟨rfl, rfl, [], by simp⟩
  have hfin : ∀ c' : Cursor, c'.GoesOn (completeFrame c') := by
    intro c'
    by_cases h : c'.ds.received = c'.ds.target
    · rw [completeFrame_complete h]
      exact ⟨rfl, rfl, [c'.ds.frame.getD []], by simp⟩
    · rw [completeFrame_incomplete h]
      exact .refl c'
  unfold payloadStage loopBack
  split
  · exact hcopy.trans (hfin _)
  · exact hcopy.trans (hfin _)

theorem Flow.From.of_goesOn {c₁ c₂ : Cursor} (h : c₁.GoesOn c₂) (ht : c₂.trace = c₁.trace)
    (hd : c₂.ds.resetDs = c₁.ds.resetDs) {f : Flow} (hf : f.From d c₂) : f.From d c₁ := by
  cases f with
  | again c' => exact Cursor.GoesOn.trans h hf
  | exit c' => exact Cursor.GoesOn.trans h hf
  | abort c' =>
    obtain ⟨k, h1, h2, h3⟩ := hf
    exact ⟨k, h1.trans hd, by rw [h2, h.2.1], by rw [h3, ht, h.2.1]⟩

theorem acceptHeader_from (d : Delivery) (w : Word) (c : Cursor) : (acceptHeader d w c).From d c := by
  rcases acceptHeader_cases d w c with ⟨_, h⟩ | ⟨_, _, h⟩ | ⟨_, _, _, h⟩ | ⟨_, _, _, h⟩ <;> rw [h]
  · exact ⟨_, rfl, rfl, rfl⟩
  · exact ⟨_, rfl, rfl, rfl⟩
  · exact ⟨_, rfl, rfl, rfl⟩
  · exact ⟨rfl, rfl, [], by simp⟩

/-- One pass goes on, ends the loop, or aborts with one error event; nothing else. -/
theorem deliverPass_from (d : Delivery) (c : Cursor) : (deliverPass d c).From d c := by
  by_cases hp : c.ds.phase = .awaitingPayload
  · rw [deliverPass_payload hp]
    exact payloadStage_from d c
  · rw [deliverPass_header hp]
    have word : ∀ w c', readHeader d c = .word w c' → c'.trace = c.trace → c'.draws = c.draws →
        c'.ds.bound = c.ds.bound → c'.ds.resetDs = c.ds.resetDs → (headerStage d c).From d c := by
      intro w c' hr ht hd hb hres
      have hgo : c.GoesOn c' := ⟨hb, hd, [], by simp [ht]⟩
      refine Flow.From.of_goesOn hgo ht hres ?_
      have ha := acceptHeader_from d w c'
      rcases acceptHeader_cases d w c' with ⟨_, h⟩ | ⟨_, _, h⟩ | ⟨_, _, _, h⟩ | ⟨_, _, _, h⟩ <;> rw [h] at ha
      · rw [headerStage_refused hr h]; exact ha
      · rw [headerStage_refused hr h]; exact ha
      · rw [headerStage_refused hr h]; exact ha
      · rw [headerStage_accepted hr h]
        exact Flow.From.of_goesOn ha (by simp) (by simp [DecodeState.resetDs]) (payloadStage_from d _)
    rcases readHeader_cases d c with ⟨_, h⟩ | ⟨_, _, h⟩ | ⟨_, _, h⟩ | ⟨_, _, h⟩ | ⟨_, _, h⟩
    · rw [headerStage_exit h]; exact .refl c
    · exact word _ _ h rfl rfl rfl rfl
    · rw [headerStage_exit h]; exact ⟨rfl, rfl, [], by simp⟩
    · rw [headerStage_abort h]; exact ⟨_, rfl, rfl, rfl⟩
    · exact word _ _ h rfl rfl rfl rfl

/-! ### The loop -/

/-- Induction over the loop: what every pass that goes on keeps, and what it makes true of the end. -/
theorem deliverLoop_induct {P Q : Cursor → Prop}
    (again : ∀ c c', P c → deliverPass d c = .again c' → P c')
    (exit : ∀ c c', P c → deliverPass d c = .exit c' → Q (postCheck d c'))
    (abort : ∀ c c', P c → deliverPass d c = .abort c' → Q c')
    (fuelOut : ∀ c, P c → Q (postCheck d c)) (n : Nat) {c : Cursor} (h : P c) : Q (deliverLoop d n c) := by
  induction n generalizing c with
  | zero => exact fuelOut c h
  | succ n ih =>
    simp only [deliverLoop]
    split
    · exact ih (again c _ h ‹_›)
    · exact exit c _ h ‹_›
    · exact abort c _ h ‹_›

theorem postCheck_ok (h : c.offset = d.buf.length) : postCheck d c = c := by simp [postCheck, h]

theorem postCheck_mismatch (h : c.offset ≠ d.buf.length) :
    postCheck d c = c.raise d .internalAccountingMismatch := by simp [postCheck, h]

/-- How a DELIVER ends, for every state: without an error, the trace longer by frames; or with one error event last and
the decode state reset. -/
def Cursor.Ended (d : Delivery) (c c' : Cursor) : Prop :=
  ∃ fs : List (List Byte),
    (c'.ds.bound = c.ds.bound ∧ c'.draws = c.draws ∧ c'.trace = c.trace ++ fs.map .frame)
      ∨ (∃ k, c'.ds = c.ds.resetDs ∧ c'.draws = c.draws + 1
          ∧ c'.trace = c.trace ++ fs.map .frame ++ [.error k (Config.errorContext d.conn c.draws)])

theorem resetDs_congr {a b : DecodeState} (h : a.bound = b.bound) : a.resetDs = b.resetDs := by
  simp [DecodeState.resetDs, h]

theorem deliverLoop_ended (d : Delivery) (n : Nat) (c : Cursor) : c.Ended d (deliverLoop d n c) := by
  have post : ∀ c', c.GoesOn c' → c.Ended d (postCheck d c') := by
    rintro c' ⟨hb, hd, fs, ht⟩
    by_cases h : c'.offset = d.buf.length
    · rw [postCheck_ok h]
      exact ⟨fs, .inl ⟨hb, hd, ht⟩⟩
    · rw [postCheck_mismatch h]
      exact ⟨fs, .inr ⟨.internalAccountingMismatch, resetDs_congr hb, by simp [hd], by simp [ht, hd]⟩⟩
  refine deliverLoop_induct (P := c.GoesOn) (Q := c.Ended d) ?_ ?_ ?_ post n (.refl c)
  · intro a b ha hab
    have := deliverPass_from d a
    rw [hab] at this
    exact ha.trans this
  · intro a b ha hab
    have := deliverPass_from d a
    rw [hab] at this
    exact post b (ha.trans this)
  · intro a b ha hab
    have h := deliverPass_from d a
    rw [hab] at h
    obtain ⟨hb, hd, fs, ht⟩ := ha
    obtain ⟨k, h1, h2, h3⟩ := h
    exact ⟨fs, .inr ⟨k, h1.trans (resetDs_congr hb), by rw [h2, hd], by rw [h3, ht, hd]⟩⟩

theorem runDelivery_ended (d : Delivery) (v : Connection) (alloc : List Bool) :
    (startCursor v alloc).Ended d (runDelivery d v alloc) :=
  deliverLoop_ended d _ _
end

end Sys2Proof.Machine
end

