-- ==== Sys2Proof/Laws/Progress.lean ====
section
/-! SUPPORT. The invariant of the decode state through a DELIVER, and the progress every pass makes. -/

namespace Sys2Proof.Machine

section
variable {d : Delivery} {c : Cursor}

theorem DecodeState.Inv.resetDs {ds : DecodeState} (h : ds.Inv) : ds.resetDs.Inv := by
  refine ⟨fun hb => ?_, fun _ => ⟨rfl, rfl, rfl, rfl⟩, fun hp => ?_, fun hp => ?_⟩
  · rw [h.1 hb]; rfl
  · exact absurd hp (by simp)
  · exact absurd hp (by simp)

theorem DecodeState.boundEmpty_inv : DecodeState.boundEmpty.Inv := by decide

theorem DecodeState.resetDs_bound_eq {ds : DecodeState} (h : ds.bound = true) : ds.resetDs = .boundEmpty := by
  simp [DecodeState.resetDs, DecodeState.boundEmpty, DecodeState.unbound, h]

/-- A bound decode state that awaits a header is the empty one. -/
theorem DecodeState.Inv.eq_boundEmpty {ds : DecodeState} (h : ds.Inv) (hb : ds.bound = true)
    (hp : ds.phase = .awaitingHeader) : ds = .boundEmpty := by
  obtain ⟨h1, h2, h3, h4⟩ := h.2.1 hp
  cases ds
  simp_all [DecodeState.boundEmpty, DecodeState.unbound]

/-- Inside the loop, after any header has been read: a frame is in progress and may already be whole. -/
structure Cursor.Filling (c : Cursor) : Prop where
  bound : c.ds.bound = true
  phase : c.ds.phase = .awaitingPayload
  lowHalf : c.ds.lowHalf = 0#16
  le : c.ds.received.toNat ≤ c.ds.target.toNat
  frame : c.ds.frame.map List.length = some c.ds.received.toNat

/-- What the payload part leaves when the frame is completed. -/
theorem finish_inv (h : c.Filling) : c.finish.ds.Inv := by
  refine ⟨fun hb => ?_, fun _ => ⟨h.lowHalf, rfl, rfl, rfl⟩, fun hp => ?_, fun hp => ?_⟩
  · simp [h.bound] at hb
  · simp at hp
  · simp at hp

theorem copyPayload_frame_length (h : c.Filling) :
    (copyPayload d c).ds.frame.map List.length = some (copyPayload d c).ds.received.toNat := by
  have hf := h.frame
  rw [copyPayload_received_toNat h.le, copyPayload_frame]
  cases hfr : c.ds.frame with
  | none => simp [hfr] at hf
  | some f =>
    have hn := copyCount_le d c
    simp only [hfr, Option.map_some, Option.some.injEq] at hf
    simp [hf]
    omega

theorem copyPayload_inv (h : c.Filling)
    (hL : d.buf.length < c.offset + (c.ds.target.toNat - c.ds.received.toNat)) (ho : c.offset ≤ d.buf.length) :
    (copyPayload d c).ds.Inv := by
  refine ⟨fun hb => ?_, fun hp => ?_, fun hp => ?_, fun _ => ⟨h.lowHalf, ?_, copyPayload_frame_length h⟩⟩
  · simp [h.bound] at hb
  · simp [h.phase] at hp
  · simp [h.phase] at hp
  · rw [copyPayload_received_toNat h.le, copyPayload_target, copyCount]
    omega

/-- What the loop keeps between passes: a bound decode state that meets its invariant, and the cursor inside the
buffer. -/
structure Cursor.Ready (d : Delivery) (c : Cursor) : Prop where
  inv : c.ds.Inv
  bound : c.ds.bound = true
  offset : c.offset ≤ d.buf.length

theorem Cursor.Ready.filling (h : c.Ready d) (hp : c.ds.phase = .awaitingPayload) : c.Filling :=
  have hi := h.inv.2.2.2 hp
  ⟨h.bound, hp, hi.1, hi.2.1.le, hi.2.2⟩

/-- A pass from a ready cursor: it goes on with the cursor moved on and still before the end; or the loop ends with the
cursor at most one past the end; or it aborts. -/
def Flow.Advances (d : Delivery) (c : Cursor) : Flow → Prop
  | .again c' => c'.ds.Inv ∧ c'.ds.bound = true ∧ c.offset < c'.offset ∧ c'.offset < d.buf.length
  | .exit c' => c'.ds.Inv ∧ c'.ds.bound = true ∧ c.offset ≤ c'.offset ∧ c'.offset ≤ d.buf.length + 1
  | .abort c' => c'.ds = .boundEmpty ∧ c'.offset ≤ d.buf.length

/-- The payload part, from a frame in progress: `k` is where the pass started. -/
theorem payloadStage_advances (h : c.Filling) (ho : c.offset ≤ d.buf.length) {k : Nat} (hk : k ≤ c.offset)
    (hmove : k < c.offset ∨ c.ds.received.toNat < c.ds.target.toNat) :
    (payloadStage d c).Advances d { c with offset := k } := by
  by_cases hL : c.offset + (c.ds.target.toNat - c.ds.received.toNat) ≤ d.buf.length
  · have hfill : (copyPayload d c).Filling :=
      ⟨h.bound, h.phase, h.lowHalf, by
        rw [copyPayload_received_toNat h.le, copyPayload_target, copyCount]
        have := h.le
        omega, copyPayload_frame_length h⟩
    have hcount : copyCount d c = c.ds.target.toNat - c.ds.received.toNat := by rw [copyCount]; omega
    rw [payloadStage_complete h.le hL, loopBack]
    split
    · refine ⟨finish_inv hfill, by simpa using h.bound, ?_, ?_⟩ <;> simp [hcount] <;> omega
    · refine ⟨finish_inv hfill, by simpa using h.bound, ?_, ?_⟩ <;> simp [hcount] at * <;> omega
  · rw [payloadStage_incomplete h.le (by omega) ho]
    have hn := copyCount_le d c
    refine ⟨copyPayload_inv h (by omega) ho, by simpa using h.bound, ?_, ?_⟩ <;> simp <;> omega

theorem deliverPass_advances (h : c.Ready d) : (deliverPass d c).Advances d c := by
  by_cases hp : c.ds.phase = .awaitingPayload
  · rw [deliverPass_payload hp]
    have := payloadStage_advances (h.filling hp) h.offset (Nat.le_refl _) (.inr (h.inv.2.2.2 hp).2.1)
    exact this
  · rw [deliverPass_header hp]
    have raised : ∀ (k : ErrorKind) (a : Cursor), a.ds.bound = true → (a.raise d k).ds = .boundEmpty :=
      fun _ _ hb => DecodeState.resetDs_bound_eq hb
    have word : ∀ w c', readHeader d c = .word w c' → c.offset < c'.offset → c'.offset ≤ d.buf.length →
        c'.ds.bound = true → c'.ds.lowHalf = 0#16 → (headerStage d c).Advances d c := by
      intro w c' hr hlt hle hb hlow
      rcases acceptHeader_cases d w c' with ⟨_, e⟩ | ⟨_, _, e⟩ | ⟨_, _, _, e⟩ | ⟨_, _, _, e⟩
      · rw [headerStage_refused hr e]; exact ⟨raised _ _ hb, hle⟩
      · rw [headerStage_refused hr e]; exact ⟨raised _ _ hb, hle⟩
      · rw [headerStage_refused hr e]; exact ⟨raised _ _ hb, hle⟩
      · rw [headerStage_accepted hr e]
        have hf : (Cursor.startPayload { c' with alloc := c'.alloc.tail } (headerLen w)).Filling :=
          ⟨hb, rfl, hlow, by simp, rfl⟩
        have := payloadStage_advances (d := d) (k := c.offset) hf hle hlt.le (.inl hlt)
        revert this
        cases payloadStage d (Cursor.startPayload { c' with alloc := c'.alloc.tail } (headerLen w)) <;> exact id
    rcases readHeader_cases d c with ⟨_, e⟩ | ⟨hl, hs, e⟩ | ⟨hl, hs, e⟩ | ⟨hl, hs, e⟩ | ⟨hl, hs, e⟩
    · rw [headerStage_exit e]
      exact ⟨h.inv, h.bound, Nat.le_refl _, by have := h.offset; omega⟩
    · exact word _ _ e (by simp) (by simpa using hl) (by simpa using h.bound) rfl
    · have hw : c.ds.phase = .awaitingHeader := by
        revert hs hp; cases c.ds.phase <;> simp
      have hi := h.inv.2.1 hw
      rw [headerStage_exit e]
      refine ⟨⟨fun hb => ?_, fun hp' => ?_, fun _ => ⟨hi.2.1, hi.2.2.1, hi.2.2.2⟩, fun hp' => ?_⟩,
        by simpa using h.bound, by simp, by simp; omega⟩
      · simp [h.bound] at hb
      · simp at hp'
      · simp at hp'
    · rw [headerStage_abort e]
      exact ⟨raised _ _ h.bound, h.offset⟩
    · have hw : c.ds.phase = .awaitingHeader := by
        revert hs hp; cases c.ds.phase <;> simp
      exact word _ _ e (by simp) (by simpa using hl) (by simpa using h.bound) (h.inv.2.1 hw).1

/-- With fuel beyond the bytes that remain, more fuel changes nothing: the loop has ended by itself. -/
theorem deliverLoop_fuel (h : c.Ready d) {n m : Nat} (hn : d.buf.length - c.offset < n) (hm : n ≤ m) :
    deliverLoop d m c = deliverLoop d n c := by
  induction n generalizing c m with
  | zero => omega
  | succ n ih =>
    obtain ⟨m, rfl⟩ : ∃ k, m = k + 1 := ⟨m - 1, by omega⟩
    have hadv := deliverPass_advances h
    simp only [deliverLoop]
    split
    · rename_i c' heq
      rw [heq] at hadv
      obtain ⟨hi, hb, hlt, hle⟩ := hadv
      exact ih ⟨hi, hb, hle.le⟩ (by omega) (by omega)
    · rfl
    · rfl

/-- The whole loop keeps the invariant and the binding, and its cursor stays at most one past the end. -/
theorem deliverLoop_keeps (h : c.Ready d) (n : Nat) :
    (deliverLoop d n c).ds.Inv ∧ (deliverLoop d n c).ds.bound = true ∧ (deliverLoop d n c).offset ≤ d.buf.length + 1 := by
  have post : ∀ c', c'.ds.Inv → c'.ds.bound = true → c'.offset ≤ d.buf.length + 1 →
      (postCheck d c').ds.Inv ∧ (postCheck d c').ds.bound = true ∧ (postCheck d c').offset ≤ d.buf.length + 1 := by
    intro c' hi hb ho
    by_cases he : c'.offset = d.buf.length
    · rw [postCheck_ok he]; exact ⟨hi, hb, ho⟩
    · rw [postCheck_mismatch he]; exact ⟨hi.resetDs, hb, ho⟩
  refine deliverLoop_induct (P := Cursor.Ready d)
    (Q := fun c' => c'.ds.Inv ∧ c'.ds.bound = true ∧ c'.offset ≤ d.buf.length + 1) ?_ ?_ ?_ ?_ n h
  · intro a b ha hab
    have := deliverPass_advances ha
    rw [hab] at this
    exact ⟨this.1, this.2.1, this.2.2.2.le⟩
  · intro a b ha hab
    have := deliverPass_advances ha
    rw [hab] at this
    exact post b this.1 this.2.1 this.2.2.2
  · intro a b ha hab
    have := deliverPass_advances ha
    rw [hab] at this
    exact ⟨this.1 ▸ DecodeState.boundEmpty_inv, by rw [this.1]; rfl, this.2.trans (Nat.le_succ _)⟩
  · intro a ha
    exact post a ha.inv ha.bound (ha.offset.trans (Nat.le_succ _))

theorem startCursor_ready {v : Connection} (hi : v.ds.Inv) (hb : v.ds.bound = true) (d : Delivery) (alloc : List Bool) :
    (startCursor v alloc).Ready d :=
  ⟨hi, hb, Nat.zero_le _⟩
end

end Sys2Proof.Machine
end

