-- ==== Sys2Proof/Laws/Shift.lean ====
section
/-! SUPPORT. A DELIVER looks only at what follows its cursor and only adds to its trace: the same bytes further on in a
longer buffer give the same passes. -/

namespace Sys2Proof.Machine

/-- The same cursor `k` bytes further on, with the events `tr` before its own. -/
def Cursor.shift (k : Nat) (tr : List Event) (c : Cursor) : Cursor :=
  { c with offset := k + c.offset, trace := tr ++ c.trace }

def HeaderRead.map (f : Cursor → Cursor) : HeaderRead → HeaderRead
  | .word w c => .word w (f c)
  | .exit c => .exit (f c)
  | .abort c => .abort (f c)

def Flow.map (f : Cursor → Cursor) : Flow → Flow
  | .again c => .again (f c)
  | .exit c => .exit (f c)
  | .abort c => .abort (f c)

section
variable (k : Nat) (tr : List Event) (c : Cursor)

@[simp] theorem Cursor.shift_ds : (c.shift k tr).ds = c.ds := rfl
@[simp] theorem Cursor.shift_draws : (c.shift k tr).draws = c.draws := rfl
@[simp] theorem Cursor.shift_offset : (c.shift k tr).offset = k + c.offset := rfl
@[simp] theorem Cursor.shift_alloc : (c.shift k tr).alloc = c.alloc := rfl
@[simp] theorem Cursor.shift_trace : (c.shift k tr).trace = tr ++ c.trace := rfl

theorem Cursor.shift_advance (n : Nat) : (c.shift k tr).advance n = (c.advance n).shift k tr := by
  simp [Cursor.shift, Cursor.advance, Nat.add_assoc]

theorem Cursor.shift_leaveSplit : (c.shift k tr).leaveSplit = c.leaveSplit.shift k tr := rfl

theorem Cursor.shift_holdHalf (h : Half) : (c.shift k tr).holdHalf h = (c.holdHalf h).shift k tr := rfl

theorem Cursor.shift_startPayload (len : Len) :
    (c.shift k tr).startPayload len = (c.startPayload len).shift k tr := rfl

theorem Cursor.shift_finish : (c.shift k tr).finish = c.finish.shift k tr := by
  simp [Cursor.shift, Cursor.finish, Cursor.advance, Cursor.emitFrame, Nat.add_assoc]

theorem Cursor.shift_tail :
    ({ c.shift k tr with alloc := (c.shift k tr).alloc.tail } : Cursor)
      = ({ c with alloc := c.alloc.tail } : Cursor).shift k tr := rfl
end

/-- `d` delivers the bytes of `d'` after `pre`. -/
structure Delivery.After (pre : List Byte) (d d' : Delivery) : Prop where
  buf : d.buf = pre ++ d'.buf
  conn : d.conn = d'.conn
  mtu : d.mtu = d'.mtu

section
variable {pre : List Byte} {d d' : Delivery}

theorem Cursor.shift_raise (h : d.After pre d') (tr : List Event) (kind : ErrorKind) (c : Cursor) :
    (c.shift pre.length tr).raise d kind = (c.raise d' kind).shift pre.length tr := by
  simp [Cursor.shift, Cursor.raise, h.conn]

theorem readHeader_shift (h : d.After pre d') (tr : List Event) (c : Cursor) :
    readHeader d (c.shift pre.length tr) = (readHeader d' c).map (Cursor.shift pre.length tr) := by
  have hlen : d.buf.length = pre.length + d'.buf.length := by simp [h.buf]
  rcases readHeader_cases d' c with ⟨hl, e⟩ | ⟨hl, hs, e⟩ | ⟨hl, hs, e⟩ | ⟨hl, hs, e⟩ | ⟨hl, hs, e⟩ <;> rw [e]
  · rw [readHeader_short (by simp; omega)]; rfl
  · rw [readHeader_second_half (by simp; omega) (by simpa using hs)]
    simp only [Cursor.shift_leaveSplit, Cursor.shift_advance, HeaderRead.map, Cursor.shift_ds, Cursor.shift_offset, h.buf,
      le16_append_right]
  · rw [readHeader_first_half (by simp; omega) (by simpa using hs)]
    simp only [Cursor.shift_holdHalf, Cursor.shift_advance, HeaderRead.map, Cursor.shift_offset, h.buf, le16_append_right]
  · rw [readHeader_three (by simp; omega) (by simpa using hs), Cursor.shift_raise h]; rfl
  · rw [readHeader_whole (by simp; omega) (by simpa using hs)]
    simp only [Cursor.shift_advance, HeaderRead.map, Cursor.shift_offset, h.buf, le32_append_right]

theorem acceptHeader_shift (h : d.After pre d') (tr : List Event) (w : Word) (c : Cursor) :
    acceptHeader d w (c.shift pre.length tr) = (acceptHeader d' w c).map (Cursor.shift pre.length tr) := by
  rcases acceptHeader_cases d' w c with ⟨hv, e⟩ | ⟨hv, hs, e⟩ | ⟨hv, hs, ha, e⟩ | ⟨hv, hs, ha, e⟩ <;> rw [e]
  · rw [acceptHeader_invalid hv, Cursor.shift_raise h]; rfl
  · rw [acceptHeader_oversized hv (by simpa [h.mtu] using hs), Cursor.shift_raise h]; rfl
  · rw [acceptHeader_unallocated hv (by simpa [h.mtu] using hs) (by simpa using ha), Cursor.shift_tail,
      Cursor.shift_raise h]; rfl
  · rw [acceptHeader_accepted hv (by simpa [h.mtu] using hs) (by simpa using ha), Cursor.shift_tail,
      Cursor.shift_startPayload]; rfl

theorem copyPayload_shift (h : d.After pre d') (tr : List Event) (c : Cursor) :
    copyPayload d (c.shift pre.length tr) = (copyPayload d' c).shift pre.length tr := by
  have hn : copyCount d (c.shift pre.length tr) = copyCount d' c := by
    simp only [copyCount, h.buf, List.length_append, Cursor.shift_offset, Cursor.shift_ds]
    congr 1
    omega
  have hd : d.buf.drop (pre.length + c.offset) = d'.buf.drop c.offset := by simp [h.buf, List.drop_append]
  unfold copyPayload
  rw [hn]
  simp [Cursor.shift, hd, Nat.add_assoc]

theorem payloadStage_shift (h : d.After pre d') (tr : List Event) (c : Cursor) :
    payloadStage d (c.shift pre.length tr) = (payloadStage d' c).map (Cursor.shift pre.length tr) := by
  have hcomplete : ∀ a : Cursor,
      completeFrame (a.shift pre.length tr) = (completeFrame a).shift pre.length tr := by
    intro a
    by_cases ha : a.ds.received = a.ds.target
    · rw [completeFrame_complete ha, completeFrame_complete (by simpa using ha), Cursor.shift_finish]
    · rw [completeFrame_incomplete ha, completeFrame_incomplete (by simpa using ha)]
  have hlen : d.buf.length = pre.length + d'.buf.length := by simp [h.buf]
  simp only [payloadStage, copyPayload_shift h, hcomplete, loopBack, Cursor.shift_offset, hlen]
  by_cases hle : d'.buf.length ≤ (completeFrame (copyPayload d' c)).offset
  · rw [if_pos hle, if_pos (by omega)]; rfl
  · rw [if_neg hle, if_neg (by omega)]; rfl

theorem deliverPass_shift (h : d.After pre d') (tr : List Event) (c : Cursor) :
    deliverPass d (c.shift pre.length tr) = (deliverPass d' c).map (Cursor.shift pre.length tr) := by
  by_cases hp : c.ds.phase = .awaitingPayload
  · rw [deliverPass_payload hp, deliverPass_payload (by simpa using hp), payloadStage_shift h]
  · rw [deliverPass_header hp, deliverPass_header (by simpa using hp)]
    simp only [headerStage, readHeader_shift h]
    cases readHeader d' c with
    | exit => rfl
    | abort => rfl
    | word w a =>
      simp only [HeaderRead.map, acceptHeader_shift h]
      cases acceptHeader d' w a with
      | again b => exact payloadStage_shift h tr b
      | exit => rfl
      | abort => rfl

theorem postCheck_shift (h : d.After pre d') (tr : List Event) (c : Cursor) :
    postCheck d (c.shift pre.length tr) = (postCheck d' c).shift pre.length tr := by
  have hlen : d.buf.length = pre.length + d'.buf.length := by simp [h.buf]
  by_cases he : c.offset = d'.buf.length
  · rw [postCheck_ok he, postCheck_ok (by simp [he, hlen])]
  · rw [postCheck_mismatch he, postCheck_mismatch (by simp [hlen, he]), Cursor.shift_raise h]

/-- The loop from the same bytes further on, with events before: the same end, further on, with those events before. -/
theorem deliverLoop_shift (h : d.After pre d') (tr : List Event) (n : Nat) (c : Cursor) :
    deliverLoop d n (c.shift pre.length tr) = (deliverLoop d' n c).shift pre.length tr := by
  induction n generalizing c with
  | zero => exact postCheck_shift h tr c
  | succ n ih =>
    simp only [deliverLoop, deliverPass_shift h]
    cases deliverPass d' c with
    | again a => exact ih a
    | exit a => exact postCheck_shift h tr a
    | abort a => rfl
end

end Sys2Proof.Machine
end

