-- ==== Sys2Proof/Laws/Exec.lean ====
section
/-! SUPPORT. What each command answers, in each case, and everything a command can do to the state. -/

namespace Sys2Proof.Machine

section
variable {s t : State}

theorem fitsOperand_iff {v : Nat} : fitsOperand v = true ↔ v ≤ 65535 := decide_eq_true_iff

theorem fitsLength_iff {n : Nat} : fitsLength n = true ↔ n ≤ 2047 := decide_eq_true_iff

theorem isHeaderOperand_iff {hdr : List Byte} : isHeaderOperand hdr = true ↔ hdr.length = 4 := decide_eq_true_iff

theorem exec_bind_unbound (h : s.connection.ds.bound = false) :
    exec .bind s
      = .next ((s.setConnection { s.connection with ds := .boundEmpty }).emit (.trace [])) := by
  simp [exec, execBind, h, DecodeState.resetDs, DecodeState.boundEmpty, DecodeState.unbound]

theorem exec_bind_bound (h : s.connection.ds.bound = true) : exec .bind s = .next (s.recordFault .bindWhileBound) := by
  simp [exec, execBind, h]

theorem exec_unbind_bound (h : s.connection.ds.bound = true) :
    exec .unbind s
      = .next ((s.setConnection { s.connection with ds := .unbound }).emit (.trace [])) := by
  simp [exec, execUnbind, h, DecodeState.resetDs, DecodeState.unbound]

theorem exec_unbind_unbound (h : s.connection.ds.bound = false) : exec .unbind s = .next (s.recordFault .unbindUnbound) := by
  simp [exec, execUnbind, h]

theorem exec_deliver (hb : s.connection.ds.bound = true) {mtu : Nat} (hm : mtu ≤ 65535) (buf : List Byte)
    (alloc : List Bool) :
    exec (.deliver buf mtu alloc) s = .next (s.endDelivery (runDelivery ⟨s.conn, buf, mtu⟩ s.connection alloc)) := by
  simp [exec, execDeliver, hb, fitsOperand_iff.mpr hm]

theorem exec_deliver_unbound (hb : s.connection.ds.bound = false) {mtu : Nat} (hm : mtu ≤ 65535) (buf : List Byte)
    (alloc : List Bool) : exec (.deliver buf mtu alloc) s = .next (s.recordFault .deliverUnbound) := by
  simp [exec, execDeliver, hb, fitsOperand_iff.mpr hm]

theorem exec_deliver_wide {mtu : Nat} (hm : 65535 < mtu) (buf : List Byte) (alloc : List Bool) :
    exec (.deliver buf mtu alloc) s = .next (s.recordFault .operandOutOfRange) := by
  have : ¬ fitsOperand mtu = true := fun h => by have := fitsOperand_iff.mp h; omega
  simp [exec, execDeliver, this]

theorem exec_encode {frame : List Byte} {mps : Nat} (hn : frame.length ≤ 2047) (h0 : 1 ≤ mps) (hm : mps ≤ 65535) :
    exec (.encode frame mps) s = .next (s.emit (.transmit (transmitBuffer frame mps))) := by
  simp [exec, execEncode, fitsOperand_iff.mpr hm, fitsLength_iff.mpr hn, Nat.one_le_iff_ne_zero.mp h0]

theorem exec_encodeHeader {len : Half} (h : len.toNat ≤ 2047) :
    exec (.encodeHeader len) s = .next (s.emit (.header (bytes32LE (headerWord len)))) := by
  simp [exec, execEncodeHeader, fitsLength_iff.mpr h]

theorem exec_decodeHeader {hdr : List Byte} (h : hdr.length = 4) :
    exec (.decodeHeader hdr) s = .next (s.emit (.decoded (headerLen (le32 hdr 0)) (headerValid (le32 hdr 0)))) := by
  simp [exec, execDecodeHeader, isHeaderOperand_iff.mpr h]

/-- Everything a command can do: it always answers a next state, which records a fault and nothing else, or records an
output and, for BIND, UNBIND and DELIVER, sets the connection it was sent to. -/
theorem exec_cases (i : Instr) (s : State) :
    (∃ r, exec i s = .next (s.recordFault r))
      ∨ (∃ o, exec i s = .next (s.emit o))
      ∨ (s.connection.ds.bound = false
          ∧ exec i s = .next ((s.setConnection { s.connection with ds := .boundEmpty }).emit (.trace [])))
      ∨ (s.connection.ds.bound = true
          ∧ exec i s = .next ((s.setConnection { s.connection with ds := .unbound }).emit (.trace [])))
      ∨ (s.connection.ds.bound = true ∧ ∃ buf mtu alloc, mtu ≤ 65535
          ∧ exec i s = .next (s.endDelivery (runDelivery ⟨s.conn, buf, mtu⟩ s.connection alloc))) := by
  cases i with
  | bind =>
    cases hb : s.connection.ds.bound with
    | false => exact .inr (.inr (.inl ⟨rfl, exec_bind_unbound hb⟩))
    | true => exact .inl ⟨_, exec_bind_bound hb⟩
  | unbind =>
    cases hb : s.connection.ds.bound with
    | true => exact .inr (.inr (.inr (.inl ⟨rfl, exec_unbind_bound hb⟩)))
    | false => exact .inl ⟨_, exec_unbind_unbound hb⟩
  | deliver buf mtu alloc =>
    by_cases hm : mtu ≤ 65535
    · cases hb : s.connection.ds.bound with
      | true => exact .inr (.inr (.inr (.inr ⟨rfl, buf, mtu, alloc, hm, exec_deliver hb hm buf alloc⟩)))
      | false => exact .inl ⟨_, exec_deliver_unbound hb hm buf alloc⟩
    · exact .inl ⟨_, exec_deliver_wide (by omega) buf alloc⟩
  | encode frame mps =>
    simp only [exec, execEncode]
    split_ifs <;> first | exact .inl ⟨_, rfl⟩ | exact .inr (.inl ⟨_, rfl⟩)
  | encodeHeader len =>
    simp only [exec, execEncodeHeader]
    split_ifs
    · exact .inr (.inl ⟨_, rfl⟩)
    · exact .inl ⟨_, rfl⟩
  | decodeHeader hdr =>
    simp only [exec, execDecodeHeader]
    split_ifs
    · exact .inr (.inl ⟨_, rfl⟩)
    · exact .inl ⟨_, rfl⟩

/-! ### Steps -/

theorem step_idle (h : s.pending = []) : step s = .next s := by simp [step, State.takeCommand, h]

theorem step_instr {c : Command} {rest : List Command} (h : s.pending = c :: rest) {i : Instr}
    (hi : decode c = .instr i) : step s = exec i { s with pending := rest, conn := c.conn } := by
  simp [step, State.takeCommand, h, hi]

theorem step_reserved {c : Command} {rest : List Command} (h : s.pending = c :: rest) {w : Word}
    (hi : decode c = .reservedCommand w) :
    step s = .next (State.recordFault { s with pending := rest, conn := c.conn } .reservedCommand) := by
  simp [step, State.takeCommand, h, hi]

end

/-! ### Allocation outcomes -/

/-- The cursor with another list of outcomes not yet drawn. -/
def Cursor.withAlloc (l : List Bool) (c : Cursor) : Cursor := { c with alloc := l }

section
variable (l m : List Bool) (c : Cursor)

@[simp] theorem Cursor.withAlloc_ds : (c.withAlloc l).ds = c.ds := rfl
@[simp] theorem Cursor.withAlloc_draws : (c.withAlloc l).draws = c.draws := rfl
@[simp] theorem Cursor.withAlloc_offset : (c.withAlloc l).offset = c.offset := rfl
@[simp] theorem Cursor.withAlloc_alloc : (c.withAlloc l).alloc = l := rfl
@[simp] theorem Cursor.withAlloc_trace : (c.withAlloc l).trace = c.trace := rfl
@[simp] theorem Cursor.withAlloc_withAlloc : (c.withAlloc l).withAlloc m = c.withAlloc m := rfl
end

theorem headD_true {l : List Bool} (h : ∀ x ∈ l, x = true) : l.headD true = true := by
  cases l with
  | nil => rfl
  | cons x rest => exact h x List.mem_cons_self

theorem tail_true {l : List Bool} (h : ∀ x ∈ l, x = true) : ∀ x ∈ l.tail, x = true :=
  fun x hx => h x (List.mem_of_mem_tail hx)

section
variable {d : Delivery}

theorem postCheck_withAlloc (l : List Bool) (c : Cursor) : postCheck d (c.withAlloc l) = (postCheck d c).withAlloc l := by
  by_cases he : c.offset = d.buf.length
  · rw [postCheck_ok he, postCheck_ok (by exact he)]
  · rw [postCheck_mismatch he, postCheck_mismatch (by exact he)]; rfl

theorem completeFrame_alloc (c : Cursor) : (completeFrame c).alloc = c.alloc := by
  by_cases he : c.ds.received = c.ds.target
  · rw [completeFrame_complete he]; rfl
  · rw [completeFrame_incomplete he]

theorem payloadStage_withAlloc (l : List Bool) (c : Cursor) :
    payloadStage d (c.withAlloc l) = (payloadStage d c).map (Cursor.withAlloc l) := by
  have hcp : copyPayload d (c.withAlloc l) = (copyPayload d c).withAlloc l := rfl
  have hcf : ∀ y : Cursor, completeFrame (y.withAlloc l) = (completeFrame y).withAlloc l := by
    intro y
    by_cases he : y.ds.received = y.ds.target
    · rw [completeFrame_complete he, completeFrame_complete (by exact he)]; rfl
    · rw [completeFrame_incomplete he, completeFrame_incomplete (by exact he)]
  simp only [payloadStage, hcp, hcf, loopBack, Cursor.withAlloc_offset]
  split <;> rfl

theorem payloadStage_again_alloc {a c : Cursor} (h : payloadStage d c = .again a) : a.alloc = c.alloc := by
  simp only [payloadStage, loopBack] at h
  split at h
  · cases h
  · cases h
    exact completeFrame_alloc _

theorem readHeader_withAlloc (l : List Bool) (c : Cursor) :
    readHeader d (c.withAlloc l) = (readHeader d c).map (Cursor.withAlloc l) := by
  rcases readHeader_cases d c with ⟨hl, e⟩ | ⟨hl, hs, e⟩ | ⟨hl, hs, e⟩ | ⟨hl, hs, e⟩ | ⟨hl, hs, e⟩ <;> rw [e]
  · rw [readHeader_short (by exact hl)]; rfl
  · rw [readHeader_second_half (by exact hl) (by exact hs)]; rfl
  · rw [readHeader_first_half (by exact hl) (by exact hs)]; rfl
  · rw [readHeader_three (by exact hl) (by exact hs)]; rfl
  · rw [readHeader_whole (by exact hl) (by exact hs)]; rfl

theorem readHeader_word_alloc {w : Word} {a c : Cursor} (h : readHeader d c = .word w a) : a.alloc = c.alloc := by
  rcases readHeader_cases d c with ⟨_, e⟩ | ⟨_, _, e⟩ | ⟨_, _, e⟩ | ⟨_, _, e⟩ | ⟨_, _, e⟩ <;> rw [e] at h <;> cases h <;> rfl

/-- With every outcome a success, one pass does not depend on how many outcomes are given, and leaves only successes. -/
theorem deliverPass_allTrue {c : Cursor} (hc : ∀ x ∈ c.alloc, x = true) {l : List Bool} (hl : ∀ x ∈ l, x = true) :
    (∃ m, (∀ x ∈ m, x = true) ∧ deliverPass d (c.withAlloc l) = (deliverPass d c).map (Cursor.withAlloc m))
      ∧ ∀ a, deliverPass d c = .again a → ∀ x ∈ a.alloc, x = true := by
  by_cases hp : c.ds.phase = .awaitingPayload
  · rw [deliverPass_payload hp, deliverPass_payload (by exact hp), payloadStage_withAlloc]
    exact ⟨⟨l, hl, rfl⟩, fun a ha x hx => hc x (payloadStage_again_alloc ha ▸ hx)⟩
  · rw [deliverPass_header hp, deliverPass_header (by exact hp)]
    simp only [headerStage, readHeader_withAlloc]
    cases hr : readHeader d c with
    | exit a => exact ⟨⟨l, hl, rfl⟩, fun b hb => by cases hb⟩
    | abort a => exact ⟨⟨l, hl, rfl⟩, fun b hb => by cases hb⟩
    | word w a =>
      have hal := readHeader_word_alloc hr
      have hat : a.alloc.headD true = true := headD_true (hal ▸ hc)
      simp only [HeaderRead.map]
      rcases acceptHeader_cases d w a with ⟨hv, e⟩ | ⟨hv, hs, e⟩ | ⟨_, _, hf, _⟩ | ⟨hv, hs, _, e⟩
      · rw [acceptHeader_invalid hv, e]
        exact ⟨⟨l, hl, rfl⟩, fun b hb => by cases hb⟩
      · rw [acceptHeader_oversized hv hs, e]
        exact ⟨⟨l, hl, rfl⟩, fun b hb => by cases hb⟩
      · rw [hat] at hf; cases hf
      · rw [acceptHeader_accepted hv hs (by exact headD_true hl), e]
        refine ⟨⟨l.tail, tail_true hl, ?_⟩, fun b hb x hx => ?_⟩
        · exact payloadStage_withAlloc l.tail
            (({ a with alloc := a.alloc.tail } : Cursor).startPayload (headerLen w))
        · have := payloadStage_again_alloc hb
          rw [this] at hx
          exact hc x (hal ▸ List.mem_of_mem_tail hx)

/-- With every outcome a success, a DELIVER does not depend on how many outcomes are given. -/
theorem deliverLoop_allTrue (d : Delivery) (n : Nat) {c : Cursor} (hc : ∀ x ∈ c.alloc, x = true) {l : List Bool}
    (hl : ∀ x ∈ l, x = true) : ∃ m, deliverLoop d n (c.withAlloc l) = (deliverLoop d n c).withAlloc m := by
  induction n generalizing c l with
  | zero => exact ⟨l, postCheck_withAlloc l c⟩
  | succ n ih =>
    obtain ⟨⟨m, hm, hpass⟩, hleft⟩ := deliverPass_allTrue (d := d) hc hl
    simp only [deliverLoop, hpass]
    cases hr : deliverPass d c with
    | again a => exact ih (hleft a hr) hm
    | exit a => exact ⟨m, postCheck_withAlloc m a⟩
    | abort a => exact ⟨m, rfl⟩
end

end Sys2Proof.Machine
end

