-- ==== Sys2Proof/Laws/PerInstr.lean ====
section
/-! SUPPORT. What holds of every instruction as syntax, one lemma for each constructor. -/

namespace Sys2Proof.Laws.CommandWord

/-- The word of `i` is a command word of 30_encoding.md R70 (bits 31:4 zero, `opc` 0x1 to 0x6), and a command with that
word and with the operands of `i` decodes to `i` on every connection. -/
def Statement (i : Instr) : Prop :=
  (encodeWord i).toNat = (opcOf i).toNat ∧ 1 ≤ (opcOf i).toNat ∧ (opcOf i).toNat ≤ 6
    ∧ ∀ conn : Nat, decode { conn := conn, word := encodeWord i, operands := encodeOperands i } = .instr i

theorem bind : Statement .bind := by
  simp [Statement, encodeWord, opcOf, decode, reservedField, opcField]

theorem unbind : Statement .unbind := by
  simp [Statement, encodeWord, opcOf, decode, reservedField, opcField]

theorem deliver (buf : List Byte) (mtu : Nat) (alloc : List Bool) : Statement (.deliver buf mtu alloc) := by
  simp [Statement, encodeWord, opcOf, decode, reservedField, opcField, encodeOperands]

theorem encode (frame : List Byte) (mps : Nat) : Statement (.encode frame mps) := by
  simp [Statement, encodeWord, opcOf, decode, reservedField, opcField, encodeOperands]

theorem encodeHeader (len : Half) : Statement (.encodeHeader len) := by
  simp [Statement, encodeWord, opcOf, decode, reservedField, opcField, encodeOperands]

theorem decodeHeader (hdr : List Byte) : Statement (.decodeHeader hdr) := by
  simp [Statement, encodeWord, opcOf, decode, reservedField, opcField, encodeOperands]

end Sys2Proof.Laws.CommandWord
end

