-- ==== Sys2Proof/Tests/Slice0.lean ====
section
/-! SUPPORT. Tests against spec/ (95_test_vectors.md where a row is named) and a witness for the hypotheses of each
statement, at the ends of their ranges. -/

open Sys2Proof Sys2Proof.Machine

namespace Sys2Proof.Tests

/-! ### Small states and operands -/

/-- Connection 1 holds `ds` and is the current one. -/
def on (ds : DecodeState) : State := { State.reset with conns := [(1, ⟨ds, 0⟩)], conn := 1 }

def awaiting : DecodeState := .boundEmpty
def split : DecodeState := { DecodeState.boundEmpty with phase := .headerSplit, lowHalf := 0x0002#16 }
/-- 2 bytes of a frame of `target` bytes have been received. -/
def payload (target : Len) : DecodeState :=
  { DecodeState.boundEmpty with phase := .awaitingPayload, target := target, received := 2#11, frame := some [0x01#8, 0x02#8] }

/-- `c` is the next command on connection 1, in a state where that connection holds `ds`. -/
def waiting (ds : DecodeState) (word : Word) (ops : Operands) : State := { on ds with conn := 0, pending := [⟨1, word, ops⟩] }

def ops (buf : List Byte) : Operands := { leastOperands with buf := buf, mtu := 1500 }

/-- The unit of 95_test_vectors.md V2: an odd payload and its pad byte. -/
def odd : StreamUnit := ⟨0xfffc0003#32, [0x11#8, 0x22#8, 0x33#8], 0x00#8⟩
/-- The unit of V1: an even payload. -/
def even : StreamUnit := ⟨0xfffd0002#32, [0xAA#8, 0xBB#8], 0x00#8⟩

def zeros (n : Nat) : List Byte := List.replicate n 0#8

theorem zeros_length (n : Nat) : (zeros n).length = n := List.length_replicate

/-! ### Operand ranges (30_encoding.md R71) -/

theorem test_wellFormed_accepts : (Instr.deliver [] 65535 []).wellFormed ∧ (Instr.encode (zeros 2047) 65535).wellFormed
    ∧ (Instr.encode [] 1).wellFormed ∧ (Instr.encodeHeader 2047#16).wellFormed
    ∧ (Instr.decodeHeader [0#8, 0#8, 0#8, 0#8]).wellFormed := by
  simp [Instr.wellFormed, Config.operandMax, Config.lenMax, zeros_length]

theorem test_wellFormed_refuses_wide_mtu : (Instr.deliver [] 65536 []).wellFormed = false := by decide
theorem test_wellFormed_refuses_long_frame : (Instr.encode (zeros 2048) 512).wellFormed = false := by
  simp [Instr.wellFormed, Config.lenMax, zeros_length]
theorem test_wellFormed_refuses_zero_mps : (Instr.encode [] 0).wellFormed = false := by decide
theorem test_wellFormed_refuses_wide_mps : (Instr.encode [] 65536).wellFormed = false := by decide
theorem test_wellFormed_refuses_long_length : (Instr.encodeHeader 2048#16).wellFormed = false := by decide
theorem test_wellFormed_refuses_short_header : (Instr.decodeHeader [0x2E#8, 0x00#8, 0xD1#8]).wellFormed = false := by decide

/-! ### Command words (30_encoding.md R70, R72), each written out bit by bit -/

theorem test_decode_bind : decode ⟨7, 0b00000000000000000000000000000001#32, leastOperands⟩ = .instr .bind := by decide
theorem test_decode_unbind : decode ⟨7, 0b00000000000000000000000000000010#32, leastOperands⟩ = .instr .unbind := by decide
theorem test_decode_deliver : decode ⟨7, 0b00000000000000000000000000000011#32, ops [0x02#8]⟩ = .instr (.deliver [0x02#8] 1500 []) := by
  decide
theorem test_decode_encode : decode ⟨7, 0b00000000000000000000000000000100#32, { leastOperands with frame := [0x5A#8], mps := 512 }⟩
    = .instr (.encode [0x5A#8] 512) := by decide
theorem test_decode_encodeHeader : decode ⟨7, 0b00000000000000000000000000000101#32, { leastOperands with len := 46#16 }⟩
    = .instr (.encodeHeader 46#16) := by decide
theorem test_decode_decodeHeader :
    decode ⟨7, 0b00000000000000000000000000000110#32, { leastOperands with hdr := [0x2E#8, 0x00#8, 0xD1#8, 0xFF#8] }⟩
      = .instr (.decodeHeader [0x2E#8, 0x00#8, 0xD1#8, 0xFF#8]) := by decide

/-- B6 to B10. -/
theorem test_decode_reserved : ∀ w ∈ [0x00000000#32, 0x00000007#32, 0x0000000F#32, 0x00000013#32, 0x80000001#32],
    decode ⟨7, w, leastOperands⟩ = .reservedCommand w := by simp [decode, reservedField, opcField]

theorem test_table_words : (List.range 8).map (decodeTableWord 32)
    = [none, some .bind, some .unbind, some (.deliver [] 0 []), some (.encode [] 1), some (.encodeHeader 0#16),
       some (.decodeHeader [0#8, 0#8, 0#8, 0#8]), none] := by decide

/-- B1, as the first command after reset. -/
theorem test_withFetchWord_bind : step (State.reset.withFetchWord 32 1)
    = .next { State.reset with conns := [(0, ⟨.boundEmpty, 0⟩)], outputs := [⟨0, .trace []⟩] } := rfl

/-! ### One step of each command -/

/-- B3 and B4. -/
theorem test_unbind : exec .unbind (on (payload 5#11)) = .next { State.reset with conn := 1, outputs := [⟨1, .trace []⟩] }
    ∧ exec .unbind (on split) = .next { State.reset with conn := 1, outputs := [⟨1, .trace []⟩] } := ⟨rfl, rfl⟩

/-- B2 and B5: the fault is recorded and nothing else changes. -/
theorem test_lifecycle_faults : exec .bind (on split) = .next { on split with faults := [⟨1, .bindWhileBound⟩] }
    ∧ exec .unbind State.reset = .next { State.reset with faults := [⟨0, .unbindUnbound⟩] } := ⟨rfl, rfl⟩

/-- B9, and a BIND after it: a recorded fault stops nothing and is not cleared (60_exceptions.md R170). -/
theorem test_fault_then_bind :
    core.run 2 { State.reset with pending := [⟨1, 0x00000013#32, leastOperands⟩, ⟨1, 0x00000001#32, leastOperands⟩] }
      = .next { on awaiting with outputs := [⟨1, .trace []⟩], faults := [⟨1, .reservedCommand⟩] } := rfl

/-- H1, H11 and H17. -/
theorem test_encodeHeader : exec (.encodeHeader 0#16) State.reset = .next (State.reset.emit (.header [0x00#8, 0x00#8, 0xFF#8, 0xFF#8]))
    ∧ exec (.encodeHeader 1514#16) State.reset = .next (State.reset.emit (.header [0xEA#8, 0x05#8, 0x15#8, 0xFA#8]))
    ∧ exec (.encodeHeader 2047#16) State.reset = .next (State.reset.emit (.header [0xFF#8, 0x07#8, 0x00#8, 0xF8#8])) :=
  ⟨rfl, rfl, rfl⟩

/-- H21, H24, H28 and H36. -/
theorem test_decodeHeader :
    exec (.decodeHeader [0x2E#8, 0x00#8, 0xD1#8, 0x07#8]) State.reset = .next (State.reset.emit (.decoded 46#11 true))
      ∧ exec (.decodeHeader [0x2E#8, 0xF8#8, 0xD1#8, 0xFF#8]) State.reset = .next (State.reset.emit (.decoded 46#11 true))
      ∧ exec (.decodeHeader [0xFF#8, 0xFF#8, 0xFF#8, 0xFF#8]) State.reset = .next (State.reset.emit (.decoded 2047#11 false))
      ∧ exec (.decodeHeader [0x2E#8, 0x00#8, 0xD1#8, 0xFB#8]) State.reset = .next (State.reset.emit (.decoded 46#11 false)) :=
  ⟨rfl, rfl, rfl, rfl⟩

/-- W4, W6 and W7. -/
theorem test_encode :
    exec (.encode [] 4) State.reset
        = .next (State.reset.emit (.transmit [0x00#8, 0x00#8, 0xFF#8, 0xFF#8, 0x00#8, 0x00#8, 0xFF#8, 0xFF#8]))
      ∧ exec (.encode [0x5A#8] 512) State.reset = .next (State.reset.emit (.transmit [0x01#8, 0x00#8, 0xFE#8, 0xFF#8, 0x5A#8]))
      ∧ exec (.encode [0x5A#8] 5) State.reset
        = .next (State.reset.emit (.transmit [0x01#8, 0x00#8, 0xFE#8, 0xFF#8, 0x5A#8, 0x00#8, 0x00#8, 0xFF#8, 0xFF#8])) :=
  ⟨rfl, rfl, rfl⟩

/-- W15 and W16. -/
theorem test_encode_faults :
    exec (.encode [0xAA#8, 0xBB#8] 0) State.reset = .next { State.reset with faults := [⟨0, .maxPacketSizeZero⟩] }
      ∧ exec (.encode [0xAA#8, 0xBB#8] 65536) State.reset = .next { State.reset with faults := [⟨0, .operandOutOfRange⟩] } :=
  ⟨rfl, rfl⟩

/-- V39, V24 and V25: a pad byte and a sentinel, a header split at the end of a buffer, and its second half. -/
theorem test_deliver_frames :
    exec (.deliver [0x01#8, 0x00#8, 0xFE#8, 0xFF#8, 0x5A#8, 0x00#8, 0x00#8, 0x00#8, 0xFF#8, 0xFF#8] 1500 []) (on awaiting)
        = .next ((on awaiting).emit (.trace [.frame [0x5A#8], .frame []]))
      ∧ exec (.deliver [0x02#8, 0x00#8, 0xFD#8, 0xFF#8, 0xAA#8, 0xBB#8, 0x02#8, 0x00#8] 1500 []) (on awaiting)
        = .next ((on split).emit (.trace [.frame [0xAA#8, 0xBB#8]]))
      ∧ exec (.deliver [0xFD#8, 0xFF#8] 1500 []) (on split)
        = .next ((on { DecodeState.boundEmpty with phase := .awaitingPayload, target := 2#11, frame := some [] }).emit (.trace [])) :=
  ⟨rfl, rfl, rfl⟩

/-- V3, V35 and V40: a pad skip past the end, the check before the size, and the second allocation failing. -/
theorem test_deliver_errors :
    exec (.deliver [0x03#8, 0x00#8, 0xFC#8, 0xFF#8, 0x11#8, 0x22#8, 0x33#8] 1500 []) (on awaiting)
        = .next ((on awaiting |>.setConnection ⟨awaiting, 1⟩).emit (.trace
            [.frame [0x11#8, 0x22#8, 0x33#8], .error .internalAccountingMismatch (Config.errorContext 1 0)]))
      ∧ exec (.deliver [0xFF#8, 0x07#8, 0xFF#8, 0xFF#8] 0 []) (on awaiting)
        = .next ((on awaiting |>.setConnection ⟨awaiting, 1⟩).emit (.trace [.error .badHeaderChecksum (Config.errorContext 1 0)]))
      ∧ exec (.deliver [0x02#8, 0x00#8, 0xFD#8, 0xFF#8, 0xAA#8, 0xBB#8, 0x02#8, 0x00#8, 0xFD#8, 0xFF#8, 0xCC#8, 0xDD#8] 1500 [true, false])
          (on awaiting)
        = .next ((on awaiting |>.setConnection ⟨awaiting, 1⟩).emit (.trace
            [.frame [0xAA#8, 0xBB#8], .error .allocationFailure (Config.errorContext 1 0)])) :=
  ⟨rfl, rfl, rfl⟩

/-- The codes of 10_state.md R21 and 30_encoding.md R69, the sentinel of 00_scope.md R7 and 30_encoding.md R67, and the flag
of 10_state.md R27. -/
theorem test_codes :
    [Phase.awaitingHeader, .headerSplit, .awaitingPayload].map Phase.code = [0#2, 1#2, 2#2]
      ∧ [ErrorKind.badHeaderChecksum, .oversizedFrame, .allocationFailure, .internalAccountingMismatch].map ErrorKind.code
        = [1, 2, 3, 4]
      ∧ bytes32LE Config.padSentinel = [0x00#8, 0x00#8, 0xFF#8, 0xFF#8] ∧ Config.padSentinel = headerWord 0#16
      ∧ split.headerSplitFlag = true ∧ awaiting.headerSplitFlag = false := by decide

/-! ### Witnesses: concrete states and operands that meet the hypotheses of each statement -/

/-- The unit of length 18, the largest accepted under `mtu` 0 (V36). -/
def eighteen : StreamUnit := ⟨0xffed0012#32, zeros 18, 0x00#8⟩

/-- Connection 1 as in `on`, beside a second connection. -/
def beside (ds : DecodeState) : State := { on ds with conns := [(1, ⟨ds, 0⟩), (2, ⟨split, 3⟩)] }

theorem arrives_whole (w : Word) (rest : List Byte) : HeaderArrives awaiting (bytes32LE w ++ rest) w rest := .inl ⟨rfl, rfl⟩

theorem test_witness_ReservedWordsFault :
    (∀ w ∈ [0x00000000#32, 0x00000007#32, 0x0000000F#32, 0x00000010#32, 0x80000001#32],
        (waiting awaiting w leastOperands).pending = [⟨1, w, leastOperands⟩]
          ∧ (w.toNat % 16 = 0 ∨ 7 ≤ w.toNat % 16 ∨ w.toNat / 16 ≠ 0))
      ∧ ∀ w ∈ [0x00000001#32, 0x00000006#32], 1 ≤ w.toNat % 16 ∧ w.toNat % 16 ≤ 6 ∧ w.toNat / 16 = 0 := by
  simp [waiting]

theorem test_witness_DecodeInvertsEncode : decode ⟨7, 0x00000003#32, ops [0x02#8]⟩ = .instr (.deliver [0x02#8] 1500 []) := by decide

theorem test_witness_StepRunsTheOldestCommand :
    (waiting awaiting 0x00000003#32 (ops [0x02#8])).pending = [⟨1, 0x00000003#32, ops [0x02#8]⟩]
      ∧ decode ⟨1, 0x00000003#32, ops [0x02#8]⟩ = .instr (.deliver [0x02#8] 1500 []) := ⟨rfl, by decide⟩

theorem test_witness_IdleStepHoldsTheState : (on (payload 5#11)).pending = [] := rfl

theorem test_witness_LaterCommandsWaitTheirTurn :
    (waiting awaiting 0x00000002#32 leastOperands).pending ≠ [] ∧ (waiting awaiting 0x00000000#32 leastOperands).pending ≠ [] := by
  decide

/-- A command that completes, one that faults, and an idle step. -/
theorem test_witness_OutputsAreAppendedInOrder :
    (∃ t, step (waiting awaiting 0x00000002#32 leastOperands) = .next t ∧ t.outputs = [⟨1, .trace []⟩] ∧ t.faults = [])
      ∧ (waiting awaiting 0x00000002#32 leastOperands).pending = [⟨1, 0x00000002#32, leastOperands⟩]
      ∧ (∃ t, step (waiting awaiting 0x00000001#32 leastOperands) = .next t ∧ t.outputs = [] ∧ t.faults = [⟨1, .bindWhileBound⟩])
      ∧ (∃ t, step State.reset = .next t) ∧ State.reset.pending = [] :=
  ⟨⟨_, rfl, rfl, rfl⟩, rfl, ⟨_, rfl, rfl, rfl⟩, ⟨_, rfl⟩, rfl⟩

theorem test_witness_FaultsAreNeverCleared : ({ on awaiting with faults := [⟨1, .bindWhileBound⟩] } : State).faults ≠ [] := by
  decide

/-- Each case of the statement: a step that records no fault, and one that does. -/
theorem test_witness_FaultingCommandsChangeNothing :
    (∃ t, step (waiting awaiting 0x00000002#32 leastOperands) = .next t ∧ t.faults = [])
      ∧ ∃ t, step (waiting .unbound 0x00000002#32 leastOperands) = .next t ∧ t.faults = [⟨1, .unbindUnbound⟩] :=
  ⟨⟨_, rfl, rfl⟩, ⟨_, rfl, rfl⟩⟩

theorem test_witness_EncodeHeaderReturnsLengthAndComplement : 2047 < (2048#16).toNat ∧ (2047#16).toNat ≤ 2047 := by decide

theorem test_witness_DecodeHeaderReturnsLengthAndValid :
    [0x2E#8, 0x00#8, 0xD1#8].length ≠ 4
      ∧ 0xFFD1002E = (0x2E#8).toNat + 256 * (0x00#8).toNat + 65536 * (0xD1#8).toNat + 16777216 * (0xFF#8).toNat
      ∧ 46 = 0xFFD1002E % 2048 ∧ 46 = (4294967295 - 0xFFD1002E) / 65536 % 2048 := by decide

theorem test_witness_HeaderTestComparesTheComplement : 0xFFD1002E#32 &&& 0x07ff07ff#32 = 0x07D1F82E#32 &&& 0x07ff07ff#32 := by decide

theorem test_witness_ValidHeaderWordsAreCounted : (2047#16).toNat ≤ 2047 := by decide

theorem test_witness_HeaderRoundTrip : (0#16).toNat ≤ 2047 ∧ (2047#16).toNat ≤ 2047 := by decide

theorem test_witness_OneBitFlipsOfAValidHeader :
    exec (.decodeHeader (bytes32LE 0xFFD1002E#32)) State.reset = .next (State.reset.emit (.decoded 46#11 true))
      ∧ (∀ k ∈ [0, 10, 16, 26], k ≤ 10 ∨ (16 ≤ k ∧ k ≤ 26)) ∧ ∀ k ∈ [11, 15, 27, 31], (11 ≤ k ∧ k ≤ 15) ∨ (27 ≤ k ∧ k ≤ 31) :=
  ⟨rfl, by decide, by decide⟩

theorem test_witness_MaskedComplementIsAccepted : (46#16).toNat ≤ 2047 ∧ (2047#16).toNat ≤ 2047 := by decide

/-- The same hypotheses stand in `EncodeReturnsTheTransmitBuffer` and `EncodeOutputLength`. -/
theorem test_witness_EncodeReturnsTheTransmitBuffer :
    ((zeros 2047).length ≤ 2047 ∧ 1 ≤ 65535 ∧ 65535 ≤ 65535 ∧ ((zeros 2047).length + 4) % 65535 ≠ 0)
      ∧ ((zeros 0).length ≤ 2047 ∧ 1 ≤ 1 ∧ 1 ≤ 65535 ∧ ((zeros 0).length + 4) % 1 = 0) := by simp [zeros_length]

theorem test_witness_EncodeFaultsOutsideItsContract :
    2047 < (zeros 2048).length ∧ 65535 ≤ 65535 ∧ (zeros 2047).length ≤ 2047 := by simp [zeros_length]

theorem test_witness_EncodeOutputLength : (zeros 2047).length ≤ 2047 ∧ 1 ≤ 1 ∧ 65535 ≤ 65535 := by simp [zeros_length]

theorem test_witness_SentinelAvoidsPacketMultiples :
    (zeros 1).length ≤ 2047 ∧ 1 ≤ 5 ∧ 5 ≤ 65535 ∧ 4 < 5
      ∧ ∀ m ∈ [1, 2, 4], 1 ≤ m ∧ m ≤ 65535 ∧ (m = 1 ∨ m = 2 ∨ m = 4) ∧ ((zeros 0).length + 4) % m = 0 := by
  simp [zeros_length]

theorem test_witness_StatelessCommandsArePure :
    (∃ frame mps, Instr.encode [] 4 = .encode frame mps) ∧ (∃ len, Instr.encodeHeader 0#16 = .encodeHeader len)
      ∧ ∃ hdr, Instr.decodeHeader [] = .decodeHeader hdr := ⟨⟨_, _, rfl⟩, ⟨_, rfl⟩, ⟨_, rfl⟩⟩

theorem test_witness_OperandsOutOfRangeFault :
    (on awaiting).connection.ds.bound = true ∧ 65535 < 65536 ∧ (zeros 2047).length ≤ 2047
      ∧ [0x2E#8, 0x00#8, 0xD1#8].length ≠ 4 := ⟨rfl, by decide, by simp [zeros_length], by decide⟩

theorem test_witness_FaultsExactlyOutsideTheContract :
    withinContract (on (payload 5#11)) (.deliver [] 65535 []) = true ∧ withinContract State.reset .bind = true
      ∧ withinContract State.reset .unbind = false ∧ withinContract (on awaiting) (.deliver [] 65536 []) = false := by decide

/-- Every fault of a decoded command has a state and operands that meet its condition. -/
theorem test_fault_conditions :
    faultCondition (on awaiting) (.deliver [] 65536 []) .operandOutOfRange ∧ faultCondition State.reset (.deliver [] 0 []) .deliverUnbound
      ∧ faultCondition (on split) .bind .bindWhileBound ∧ faultCondition State.reset .unbind .unbindUnbound
      ∧ faultCondition State.reset (.encodeHeader 2048#16) .headerLengthOutOfRange
      ∧ faultCondition State.reset (.encode (zeros 2048) 1) .encodeLengthOutOfRange
      ∧ faultCondition State.reset (.encode [] 0) .maxPacketSizeZero := by
  refine ⟨by decide, by decide, by decide, by decide, by decide, ?_, by decide⟩
  simp [faultCondition, zeros_length]

theorem test_witness_BindCreatesAnEmptyDecodeState :
    (on (payload 5#11)).connection.ds.bound = true ∧ State.reset.connection.ds.bound = false := ⟨rfl, rfl⟩

theorem test_witness_BindWhileBoundFaults : (on split).connection.ds.bound = true := rfl

theorem test_witness_UnbindDiscardsSilently :
    (on (payload 5#11)).connection.ds.bound = true ∧ (on split).connection.ds.bound = true := ⟨rfl, rfl⟩

theorem test_witness_UnboundConnectionsFault :
    State.reset.connection.ds.bound = false ∧ 65535 ≤ 65535 ∧ (zeros 2047).length ≤ 2047 ∧ 1 ≤ 65535
      ∧ (2047#16).toNat ≤ 2047 ∧ [0x00#8, 0x00#8, 0xFF#8, 0xFF#8].length = 4 :=
  ⟨rfl, by decide, by simp [zeros_length], by decide, by decide, by decide⟩

theorem test_witness_DecodeInvariantIsKept :
    (waiting (payload 5#11) 0x00000003#32 (ops [0x03#8])).Inv
      ∧ ∃ t, step (waiting (payload 5#11) 0x00000003#32 (ops [0x03#8])) = .next t := ⟨by decide, _, rfl⟩

theorem test_witness_DeliverCompletesOnEveryBuffer : (on (payload 5#11)).connection.ds.bound = true ∧ 65535 ≤ 65535 :=
  ⟨rfl, by decide⟩

theorem test_witness_DeliverUnboundFaults : State.reset.connection.ds.bound = false ∧ 65535 ≤ 65535 := ⟨rfl, by decide⟩

theorem test_witness_EmptyBufferChangesNothing :
    ∀ ds ∈ [awaiting, split, payload 5#11], (on ds).Inv ∧ (on ds).connection.ds.bound = true ∧ 0 ≤ 65535 := by decide

/-- The same hypotheses stand in `UnitsThenRest`, `SplitBufferEquivalence` and `BadCutAlwaysRaisesAMismatch`. -/
theorem test_witness_LeftoverBytesWhereAHeaderIsExpected :
    (on awaiting).connection.ds = .boundEmpty ∧ 0 ≤ 65535 ∧ (∀ x ∈ [true, true], x = true)
      ∧ ∀ u ∈ [odd, even, eighteen], u.wellFormed 0 = true := by decide

theorem test_witness_StrayByteLosesTheHeldHalf :
    (on split).connection.ds.bound = true ∧ (on split).connection.ds.phase = .headerSplit ∧ 1500 ≤ 65535 := ⟨rfl, rfl, by decide⟩

/-- A whole and a split header with a wrong complement (V8, V15); length 19 and length 18 under `mtu` 0 (V37, V36). -/
theorem test_witness_HeaderChecksAbortInOrder :
    (HeaderArrives (on awaiting).connection.ds (bytes32LE 0xffff0002#32 ++ [0xAA#8]) 0xffff0002#32 [0xAA#8]
        ∧ HeaderArrives (on split).connection.ds [0xFF#8, 0xFF#8, 0xAA#8] 0xffff0002#32 [0xAA#8] ∧ headerValid 0xffff0002#32 = false)
      ∧ (HeaderArrives (on awaiting).connection.ds (bytes32LE 0xffec0013#32 ++ []) 0xffec0013#32 []
        ∧ headerValid 0xffec0013#32 = true ∧ 0 + 18 < (headerLen 0xffec0013#32).toNat)
      ∧ HeaderArrives (on awaiting).connection.ds (bytes32LE 0xffed0012#32 ++ []) 0xffed0012#32 []
      ∧ headerValid 0xffed0012#32 = true ∧ (headerLen 0xffed0012#32).toNat ≤ 0 + 18 ∧ [false].head? = some false :=
  ⟨⟨arrives_whole _ _, .inr ⟨rfl, by decide, rfl⟩, by decide⟩, ⟨arrives_whole _ _, by decide, by decide⟩,
    arrives_whole _ _, by decide, by decide, rfl⟩

/-- Length 18 under `mtu` 0: no payload byte, and all but one; and a split header. -/
theorem test_witness_AcceptedHeaderStartsAFrame :
    (on awaiting).Inv ∧ (on awaiting).connection.ds.bound = true
      ∧ HeaderArrives (on awaiting).connection.ds (bytes32LE 0xffed0012#32 ++ []) 0xffed0012#32 []
      ∧ HeaderArrives (on awaiting).connection.ds (bytes32LE 0xffed0012#32 ++ zeros 17) 0xffed0012#32 (zeros 17)
      ∧ HeaderArrives (on split).connection.ds [0xFD#8, 0xFF#8, 0xAA#8] 0xfffd0002#32 [0xAA#8]
      ∧ headerValid 0xffed0012#32 = true ∧ (headerLen 0xffed0012#32).toNat ≤ 0 + 18 ∧ [true].head? ≠ some false
      ∧ (zeros 17).length < (headerLen 0xffed0012#32).toNat ∧ 1 < (headerLen 0xfffd0002#32).toNat :=
  ⟨by decide, rfl, arrives_whole _ _, arrives_whole _ _, .inr ⟨rfl, by decide, rfl⟩, by decide, by decide, by decide, by decide,
    by decide⟩

/-- V2 with its pad byte, V3 without it, V5 split. -/
theorem test_witness_WholeUnitEmitsItsFrame :
    (on awaiting).Inv ∧ (on split).Inv ∧ (on awaiting).connection.ds.bound = true
      ∧ HeaderArrives (on awaiting).connection.ds (bytes32LE 0xfffc0003#32 ++ ([0x11#8, 0x22#8, 0x33#8] ++ [0x00#8])) 0xfffc0003#32
        ([0x11#8, 0x22#8, 0x33#8] ++ [0x00#8])
      ∧ HeaderArrives (on awaiting).connection.ds (bytes32LE 0xfffc0003#32 ++ ([0x11#8, 0x22#8, 0x33#8] ++ [])) 0xfffc0003#32
        ([0x11#8, 0x22#8, 0x33#8] ++ [])
      ∧ HeaderArrives (on split).connection.ds [0xFD#8, 0xFF#8, 0xAA#8, 0xBB#8] 0xfffd0002#32 ([0xAA#8, 0xBB#8] ++ [])
      ∧ headerValid 0xfffc0003#32 = true ∧ (headerLen 0xfffc0003#32).toNat = [0x11#8, 0x22#8, 0x33#8].length ∧ 3 ≤ 0 + 18
      ∧ headerValid 0xfffd0002#32 = true ∧ (headerLen 0xfffd0002#32).toNat = [0xAA#8, 0xBB#8].length :=
  ⟨by decide, by decide, rfl, arrives_whole _ _, arrives_whole _ _, .inr ⟨rfl, by decide, rfl⟩, by decide, by decide, by decide,
    by decide, by decide⟩

/-- No byte more, and all but one, of a frame accepted under a larger `mtu`. -/
theorem test_witness_PayloadCarriesOnUnderAnyMtu :
    (on (payload 5#11)).Inv ∧ (on (payload 5#11)).connection.ds.bound = true
      ∧ (on (payload 5#11)).connection.ds.phase = .awaitingPayload
      ∧ (on (payload 5#11)).connection.ds.frame = some [0x01#8, 0x02#8] ∧ 0 ≤ 65535
      ∧ [0x01#8, 0x02#8].length + ([] : List Byte).length < (on (payload 5#11)).connection.ds.target.toNat
      ∧ [0x01#8, 0x02#8].length + [0x03#8, 0x04#8].length < (on (payload 5#11)).connection.ds.target.toNat := by decide

/-- An odd frame with its pad byte, or with its last byte ending the buffer, and an even one. -/
theorem test_witness_PayloadCompletesUnderAnyMtu :
    ((on (payload 5#11)).Inv ∧ (on (payload 5#11)).connection.ds.bound = true
        ∧ (on (payload 5#11)).connection.ds.phase = .awaitingPayload
        ∧ (on (payload 5#11)).connection.ds.frame = some [0x01#8, 0x02#8]
        ∧ [0x01#8, 0x02#8].length + [0x03#8, 0x04#8, 0x05#8].length = (on (payload 5#11)).connection.ds.target.toNat
        ∧ [0x00#8].length = (on (payload 5#11)).connection.ds.target.toNat % 2
        ∧ (on (payload 5#11)).connection.ds.target.toNat % 2 = 1)
      ∧ (on (payload 4#11)).Inv
      ∧ [0x01#8, 0x02#8].length + [0x03#8, 0x04#8].length = (on (payload 4#11)).connection.ds.target.toNat
      ∧ ([] : List Byte).length = (on (payload 4#11)).connection.ds.target.toNat % 2 := by decide

theorem test_witness_PayloadCompletes_rest :
    exec (.deliver [] 0 []) ((on (payload 5#11)).setConnection ⟨.boundEmpty, (on (payload 5#11)).connection.draws⟩)
        = .next ((((on (payload 5#11)).setConnection ⟨.boundEmpty, (on (payload 5#11)).connection.draws⟩).setConnection
            ⟨.boundEmpty, 0⟩).emit (.trace []))
      ∧ exec (.deliver [0x02#8, 0x00#8] 0 []) ((on (payload 5#11)).setConnection ⟨.boundEmpty, (on (payload 5#11)).connection.draws⟩)
        = .next ((((on (payload 5#11)).setConnection ⟨.boundEmpty, (on (payload 5#11)).connection.draws⟩).setConnection
            ⟨split, 0⟩).emit (.trace [])) := ⟨rfl, rfl⟩

/-- Every outcome a success, none given and one given; and V40, where the second header's allocation fails. -/
theorem test_witness_UnitsThenRest :
    (on awaiting).connection.ds = .boundEmpty ∧ (∀ u ∈ [odd, even], u.wellFormed 1500 = true)
      ∧ (∀ x ∈ ([] : List Bool).take 2, x = true) ∧ ((∀ x ∈ ([] : List Bool), x = true) ∧ ∀ x ∈ [true], x = true)
      ∧ exec (.deliver [0x02#8, 0x00#8] 1500 [true]) (on awaiting) = .next (((on awaiting).setConnection ⟨split, 0⟩).emit (.trace []))
      ∧ (∀ x ∈ [true, false].take 1, x = true) ∧ [false] = [true, false].drop 1
      ∧ exec (.deliver [0x02#8, 0x00#8, 0xFD#8, 0xFF#8, 0xCC#8, 0xDD#8] 1500 [false]) (on awaiting)
        = .next (((on awaiting).setConnection ⟨.boundEmpty, 1⟩).emit (.trace
            [.error .allocationFailure (Config.errorContext 1 0)])) :=
  ⟨rfl, by decide, by decide, by decide, rfl, by decide, rfl, rfl⟩

/-- V12 and V23, then a half header; and the same zero-length header with its low half held. -/
theorem test_witness_ZeroLengthUnitEmitsAnEmptyFrame :
    (on awaiting).Inv ∧ (on awaiting).connection.ds.bound = true
      ∧ HeaderArrives (on awaiting).connection.ds (bytes32LE 0xffff0000#32 ++ [0x02#8, 0x00#8]) 0xffff0000#32 [0x02#8, 0x00#8]
      ∧ HeaderArrives { split with lowHalf := 0x0000#16 } [0xFF#8, 0xFF#8] 0xffff0000#32 []
      ∧ headerValid 0xffff0000#32 = true ∧ headerLen 0xffff0000#32 = 0#11
      ∧ [false].head? = some false ∧ ([] : List Bool).head? ≠ some false
      ∧ exec (.deliver [0x02#8, 0x00#8] 1500 ([] : List Bool).tail) ((on awaiting).setConnection ⟨.boundEmpty, (on awaiting).connection.draws⟩)
        = .next ((((on awaiting).setConnection ⟨.boundEmpty, (on awaiting).connection.draws⟩).setConnection ⟨split, 0⟩).emit
            (.trace [])) :=
  ⟨by decide, rfl, arrives_whole _ _, .inr ⟨rfl, by decide, rfl⟩, by decide, by decide, rfl, by decide, rfl⟩

theorem test_witness_PadByteIsNeverRead :
    (on awaiting).Inv
      ∧ HeaderArrives (on awaiting).connection.ds (bytes32LE 0xfffc0003#32 ++ ([0x11#8, 0x22#8, 0x33#8] ++ 0x00#8 :: []))
        0xfffc0003#32 ([0x11#8, 0x22#8, 0x33#8] ++ 0x00#8 :: [])
      ∧ HeaderArrives (on awaiting).connection.ds (bytes32LE 0xfffc0003#32 ++ ([0x11#8, 0x22#8, 0x33#8] ++ 0xFF#8 :: []))
        0xfffc0003#32 ([0x11#8, 0x22#8, 0x33#8] ++ 0xFF#8 :: [])
      ∧ (headerLen 0xfffc0003#32).toNat = [0x11#8, 0x22#8, 0x33#8].length ∧ [0x11#8, 0x22#8, 0x33#8].length % 2 = 1 :=
  ⟨by decide, arrives_whole _ _, arrives_whole _ _, by decide, by decide⟩

/-- H20 and H24 as received headers; and with the low half held. -/
theorem test_witness_IgnoredHeaderBitsChangeNothing :
    0xFFD1002E#32 &&& 0x07ff07ff#32 = 0x07D1F82E#32 &&& 0x07ff07ff#32
      ∧ HeaderArrives (on awaiting).connection.ds (bytes32LE 0xFFD1002E#32 ++ []) 0xFFD1002E#32 []
      ∧ HeaderArrives (on awaiting).connection.ds (bytes32LE 0x07D1F82E#32 ++ []) 0x07D1F82E#32 []
      ∧ 0xfffd0002#32 &&& 0x07ff07ff#32 = 0x07fd0002#32 &&& 0x07ff07ff#32
      ∧ HeaderArrives (on split).connection.ds [0xFD#8, 0xFF#8] 0xfffd0002#32 []
      ∧ HeaderArrives (on split).connection.ds [0xFD#8, 0x07#8] 0x07fd0002#32 [] :=
  ⟨by decide, arrives_whole _ _, arrives_whole _ _, by decide, .inr ⟨rfl, by decide, rfl⟩, .inr ⟨rfl, by decide, rfl⟩⟩

theorem test_witness_TraceIsFramesThenAtMostOneError : (on split).connection.ds.bound = true ∧ 1500 ≤ 65535 := ⟨rfl, by decide⟩

/-- V26: an odd frame at the end of a buffer. -/
theorem test_witness_EveryErrorResetsTheDecodeState :
    (on (payload 3#11)).connection.ds.bound = true ∧ connsWf (on (payload 3#11)).conns = true
      ∧ exec (.deliver [0x03#8] 1500 []) (on (payload 3#11))
        = .next (((on (payload 3#11)).setConnection ⟨.boundEmpty, 1⟩).emit (.trace
            [.frame [0x01#8, 0x02#8, 0x03#8], .error .internalAccountingMismatch (Config.errorContext 1 0)]))
      ∧ .error .internalAccountingMismatch (Config.errorContext 1 0)
        ∈ [Event.frame [0x01#8, 0x02#8, 0x03#8], .error .internalAccountingMismatch (Config.errorContext 1 0)] :=
  ⟨rfl, by decide, rfl, .tail _ (.head _)⟩

/-- A frame accepted at the bound of `mtu` 0 (V36), and one carried on past it (V38). -/
theorem test_witness_FrameInProgressFitsItsMtu :
    (on awaiting).Inv ∧ (on (payload 1500#11)).Inv
      ∧ (∃ t, exec (.deliver (bytes32LE 0xffed0012#32) 0 []) (on awaiting) = .next t
          ∧ t.connection.ds.phase = .awaitingPayload)
      ∧ ∃ t, exec (.deliver [0x00#8] 0 []) (on (payload 1500#11)) = .next t ∧ t.connection.ds.phase = .awaitingPayload :=
  ⟨by decide, by decide, ⟨_, rfl, rfl⟩, ⟨_, rfl, rfl⟩⟩

theorem test_witness_EmittedFramesFitTheLengthField :
    (on (payload 4#11)).Inv
      ∧ ∃ t, exec (.deliver [0x03#8, 0x04#8] 0 []) (on (payload 4#11)) = .next t
          ∧ .frame [0x01#8, 0x02#8, 0x03#8, 0x04#8] ∈ (on (payload 4#11)).eventsSince t :=
  ⟨by decide, _, rfl, .head _⟩

/-- A pass that goes on, one that exits with the cursor one past the end, one that aborts (V3, V18, V7). -/
theorem test_witness_DeliverEndsInBoundedPasses :
    ((payload 3#11).Inv ∧ (payload 3#11).bound = true ∧ [0x03#8].length + 1 ≤ 2)
      ∧ (∃ c', deliverPass ⟨1, [0x03#8], 0⟩ (startCursor ⟨payload 3#11, 0⟩ []) = .exit c' ∧ c'.offset = 2)
      ∧ (∃ c', deliverPass ⟨1, [0x03#8, 0x00#8, 0x02#8], 0⟩ (startCursor ⟨payload 3#11, 0⟩ []) = .again c' ∧ c'.offset = 2)
      ∧ (∃ c', deliverPass ⟨1, [0x00#8, 0x00#8, 0xFF#8, 0xFF#8, 0x02#8], 0⟩ (startCursor ⟨awaiting, 0⟩ []) = .again c' ∧ c'.offset = 4)
      ∧ ∃ c', deliverPass ⟨1, [0x02#8, 0x00#8, 0xFD#8], 0⟩ (startCursor ⟨awaiting, 0⟩ []) = .abort c' :=
  ⟨by decide, ⟨_, rfl, rfl⟩, ⟨_, rfl, rfl⟩, ⟨_, rfl, rfl⟩, ⟨_, rfl⟩⟩

/-- The first buffer ends inside a header, the second ends with an error (90_conflicts.md C7, V16). -/
theorem test_witness_ErrorFreeBuffersConcatenate :
    (on awaiting).Inv ∧ (∀ b ∈ [true], b = true)
      ∧ ∃ t, exec (.deliver [0x02#8, 0x00#8] 1500 [true]) (on awaiting) = .next t
          ∧ (∀ e ∈ (on awaiting).eventsSince t, e.errorKind = none)
          ∧ ∃ u, exec (.deliver [0xFD#8] 1500 []) t = .next u :=
  ⟨by decide, by decide, _, rfl, by decide, _, rfl⟩

/-- Cut between the halves of the second header (allowed), and at each kind of bad cut. -/
theorem test_witness_SplitBufferEquivalence :
    (on awaiting).Inv ∧ (on awaiting).connection.ds = .boundEmpty ∧ (∀ u ∈ [odd, even], u.wellFormed 1500 = true)
      ∧ [(streamBytes [odd, even]).take 10, (streamBytes [odd, even]).drop 10].flatten = streamBytes [odd, even]
      ∧ ∀ p ∈ cutPositions 0 [(streamBytes [odd, even]).take 10, (streamBytes [odd, even]).drop 10], badCut 0 [odd, even] p = false := by
  decide

theorem test_witness_BadCutAlwaysRaisesAMismatch :
    (on awaiting).Inv ∧ (∀ u ∈ [odd, even], u.wellFormed 1500 = true)
      ∧ ∀ p ∈ [1, 3, 7, 9, 11],
        [(streamBytes [odd, even]).take p, (streamBytes [odd, even]).drop p].flatten = streamBytes [odd, even]
          ∧ p ∈ cutPositions 0 [(streamBytes [odd, even]).take p, (streamBytes [odd, even]).drop p]
          ∧ badCut 0 [odd, even] p = true := by decide

/-- An even frame without and with the sentinel, and an odd one, at the bound of `mtu` 0. -/
theorem test_witness_LoopbackEmitsTheFrame :
    (on awaiting).connection.ds = .boundEmpty ∧ (zeros 18).length ≤ 2047 ∧ 1 ≤ 64 ∧ 64 ≤ 65535 ∧ (zeros 18).length ≤ 0 + 18
      ∧ ((zeros 18).length % 2 = 0 ∧ ((zeros 18).length + 4) % 64 ≠ 0)
      ∧ ((zeros 18).length % 2 = 0 ∧ ((zeros 18).length + 4) % 11 = 0) ∧ (zeros 17).length % 2 = 1 := by decide

theorem test_witness_CommandsReadOnlyTheirConnection :
    connsWf (on (payload 5#11)).conns = true ∧ connsWf (beside (payload 5#11)).conns = true
      ∧ (beside (payload 5#11)).conn = (on (payload 5#11)).conn
      ∧ (beside (payload 5#11)).connection = (on (payload 5#11)).connection := by decide

theorem test_witness_CommandsChangeOnlyTheirConnection : ∃ t, exec .unbind (beside awaiting) = .next t := ⟨_, rfl⟩

theorem test_witness_CommandsOnTwoConnectionsCommute :
    connsWf (beside awaiting).conns = true ∧ (1 : Nat) ≠ 2
      ∧ ∃ t, exec .unbind { beside awaiting with conn := 1 } = .next t ∧ ∃ u, exec .unbind { t with conn := 2 } = .next u :=
  ⟨by decide, by decide, _, rfl, _, rfl⟩

/-- The second unit of V13, from offset 6; and an odd payload that ends its buffer, from offset 0 (V3). -/
theorem test_witness_UnitLengthIsReadFromItsHeader :
    (startCursor ⟨awaiting, 0⟩ []).ds = .boundEmpty
      ∧ headerValid (le32 [0x01#8, 0x00#8, 0xFE#8, 0xFF#8, 0x5A#8, 0x00#8, 0x02#8, 0x00#8, 0xFD#8, 0xFF#8, 0x01#8, 0x02#8] 6) = true
      ∧ (headerLen (le32 [0x01#8, 0x00#8, 0xFE#8, 0xFF#8, 0x5A#8, 0x00#8, 0x02#8, 0x00#8, 0xFD#8, 0xFF#8, 0x01#8, 0x02#8] 6)).toNat = 2
      ∧ 2 ≤ 0 + 18 ∧ ([] : List Bool).head? ≠ some false ∧ 6 + 4 + 2 ≤ 12
      ∧ headerValid (le32 [0x03#8, 0x00#8, 0xFC#8, 0xFF#8, 0x11#8, 0x22#8, 0x33#8] 0) = true
      ∧ (headerLen (le32 [0x03#8, 0x00#8, 0xFC#8, 0xFF#8, 0x11#8, 0x22#8, 0x33#8] 0)).toNat = 3 ∧ 0 + 4 + 3 ≤ 7 := by decide

end Sys2Proof.Tests
end

section
/-! PROOFS. The statements of 00_scope.md. -/

namespace Sys2Proof.Machine

/-- Settles O4, by `step_instr`: the command taken is the head of the queue, and it decodes to an instruction. -/
theorem stepRunsTheOldestCommand : Obligations.StepRunsTheOldestCommand := by
  intro s c rest i hpending hdecode
  exact step_instr hpending hdecode

end Sys2Proof.Machine
end

section
/-! SUPPORT. What one pass of a DELIVER can lead to, written as operations on its cursor, and a rule for what every pass
keeps. -/

namespace Sys2Proof.Machine

/-- The cursor a step of the loop ends with, however it ends. -/
def Flow.cursor : Flow → Cursor
  | .again c => c
  | .exit c => c
  | .abort c => c

section
variable {d : Delivery} {c : Cursor}

@[simp] theorem payloadStage_cursor : (payloadStage d c).cursor = completeFrame (copyPayload d c) := by
  unfold payloadStage loopBack
  split
  · rfl
  · rfl

/-- Everything a pass that starts at a header can do once the header word is read: an abort with one error, or the
payload part of a frame within the size bound (41_decode.md R117 to R120). -/
theorem headerStage_of_word {w : Word} {a : Cursor} (h : readHeader d c = .word w a) :
    (∃ (k : ErrorKind) (b : Cursor), b.trace = a.trace ∧ b.offset = a.offset ∧ headerStage d c = .abort (b.raise d k))
      ∨ ∃ (len : Len) (b : Cursor), b.trace = a.trace ∧ b.offset = a.offset ∧ len.toNat ≤ d.mtu + 18
          ∧ headerStage d c = payloadStage d (b.startPayload len) := by
  rcases acceptHeader_cases d w a with ⟨_, e⟩ | ⟨_, _, e⟩ | ⟨_, _, _, e⟩ | ⟨_, hsize, _, e⟩
  · exact .inl ⟨_, a, rfl, rfl, headerStage_refused h e⟩
  · exact .inl ⟨_, a, rfl, rfl, headerStage_refused h e⟩
  · exact .inl ⟨_, { a with alloc := a.alloc.tail }, rfl, rfl, headerStage_refused h e⟩
  · exact .inr ⟨_, { a with alloc := a.alloc.tail }, rfl, rfl, hsize, headerStage_accepted h e⟩

/-- What a pass that expects a header can do: end the loop as it is or with a half held, abort with one error, or read a
header of at least two more bytes and take its payload. -/
inductive HeaderPass (d : Delivery) (c : Cursor) : Flow → Prop where
  | short : HeaderPass d c (.exit c)
  | held (low : Half) : HeaderPass d c (.exit ((c.holdHalf low).advance 2))
  | raised (k : ErrorKind) (a : Cursor) (trace : a.trace = c.trace) (offset : c.offset ≤ a.offset) :
      HeaderPass d c (.abort (a.raise d k))
  | started (len : Len) (a : Cursor) (trace : a.trace = c.trace) (offset : c.offset + 2 ≤ a.offset)
      (size : len.toNat ≤ d.mtu + 18) : HeaderPass d c (payloadStage d (a.startPayload len))

theorem deliverPass_headerPass (hp : c.ds.phase ≠ .awaitingPayload) : HeaderPass d c (deliverPass d c) := by
  rw [deliverPass_header hp]
  have word : ∀ w a, readHeader d c = .word w a → a.trace = c.trace → c.offset + 2 ≤ a.offset →
      HeaderPass d c (headerStage d c) := by
    intro w a hr ht ho
    rcases headerStage_of_word hr with ⟨k, b, hbt, hbo, e⟩ | ⟨len, b, hbt, hbo, hsize, e⟩
    · rw [e]; exact .raised k b (hbt.trans ht) (by omega)
    · rw [e]; exact .started len b (hbt.trans ht) (by omega) hsize
  rcases readHeader_cases d c with ⟨_, e⟩ | ⟨_, _, e⟩ | ⟨_, _, e⟩ | ⟨_, _, e⟩ | ⟨_, _, e⟩
  · rw [headerStage_exit e]; exact .short
  · exact word _ _ e rfl (by simp)
  · rw [headerStage_exit e]; exact .held _
  · rw [headerStage_abort e]; exact .raised _ c rfl (Nat.le_refl _)
  · exact word _ _ e rfl (by simp)

/-- What every pass and a failed post-condition check keep, the whole loop keeps. -/
theorem deliverLoop_keeps_of_pass {P : Cursor → Prop} (pass : ∀ a, P a → P (deliverPass d a).cursor)
    (mismatch : ∀ a, P a → P (a.raise d .internalAccountingMismatch)) (n : Nat) (h : P c) : P (deliverLoop d n c) := by
  have post : ∀ a, P a → P (postCheck d a) := by
    intro a ha
    by_cases he : a.offset = d.buf.length
    · rw [postCheck_ok he]; exact ha
    · rw [postCheck_mismatch he]; exact mismatch a ha
  have carried : ∀ {f a b}, P a → deliverPass d a = f → f.cursor = b → P b := by
    rintro f a b ha rfl rfl
    exact pass a ha
  exact deliverLoop_induct (fun _ _ ha e => carried ha e rfl) (fun _ b ha e => post b (carried ha e rfl))
    (fun _ _ ha e => carried ha e rfl) post n h

theorem completeFrame_offset_le (c : Cursor) : c.offset ≤ (completeFrame c).offset := by
  by_cases h : c.ds.received = c.ds.target
  · rw [completeFrame_complete h, Cursor.finish_offset]
    omega
  · rw [completeFrame_incomplete h]

theorem payloadStage_offset_le (d : Delivery) (c : Cursor) : c.offset ≤ (payloadStage d c).cursor.offset := by
  rw [payloadStage_cursor]
  calc c.offset ≤ (copyPayload d c).offset := by simp
    _ ≤ _ := completeFrame_offset_le _

/-- No pass moves the cursor back. -/
theorem deliverPass_offset_le (d : Delivery) (c : Cursor) : c.offset ≤ (deliverPass d c).cursor.offset := by
  by_cases hp : c.ds.phase = .awaitingPayload
  · rw [deliverPass_payload hp]
    exact payloadStage_offset_le d c
  · have hpass := deliverPass_headerPass (d := d) hp
    generalize deliverPass d c = f at hpass ⊢
    cases hpass with
    | short => exact Nat.le_refl _
    | held low => simp [Flow.cursor]
    | raised k a ht ho => exact ho
    | started len a ht ho hsize =>
      have := payloadStage_offset_le d (a.startPayload len)
      rw [Cursor.startPayload_offset] at this
      omega

/-- A pass that reads a header and goes on has read at least its last two bytes (41_decode.md R113, R115). -/
theorem deliverPass_again_offset (hp : c.ds.phase ≠ .awaitingPayload) {c' : Cursor}
    (h : deliverPass d c = .again c') : c.offset + 2 ≤ c'.offset := by
  have hpass := deliverPass_headerPass (d := d) hp
  generalize deliverPass d c = f at hpass h
  cases hpass with
  | short => cases h
  | held low => cases h
  | raised k a ht ho => cases h
  | started len a ht ho hsize =>
    have := payloadStage_offset_le d (a.startPayload len)
    rw [h, Cursor.startPayload_offset] at this
    exact ho.trans this

end

/-! ### The size of frames -/

/-- A frame in progress was accepted under `mtu`, or is the one `ds` held before the DELIVER, with nothing emitted. -/
def Cursor.FitsOrCarriedOn (mtu : Nat) (ds : DecodeState) (c : Cursor) : Prop :=
  c.ds.phase = .awaitingPayload →
    c.ds.target.toNat ≤ mtu + 18 ∨ (ds.phase = .awaitingPayload ∧ c.ds.target = ds.target ∧ c.trace = [])

/-- The frame in progress holds at most the bytes received, these at most the target, and every frame emitted fits the
length field. -/
structure Cursor.FramesFit (c : Cursor) : Prop where
  received : c.ds.received.toNat ≤ c.ds.target.toNat
  partialFrame : (c.ds.frame.getD []).length ≤ c.ds.received.toNat
  emitted : ∀ bytes, .frame bytes ∈ c.trace → bytes.length ≤ 2047

section
variable {d : Delivery} {c : Cursor}

theorem payloadStage_fitsOrCarriedOn {ds : DecodeState} (h : c.ds.phase = .awaitingPayload)
    (hc : c.FitsOrCarriedOn d.mtu ds) : (payloadStage d c).cursor.FitsOrCarriedOn d.mtu ds := by
  rw [payloadStage_cursor]
  by_cases he : (copyPayload d c).ds.received = (copyPayload d c).ds.target
  · rw [completeFrame_complete he]
    intro hp
    cases hp
  · rw [completeFrame_incomplete he]
    exact fun _ => hc h

theorem deliverPass_fitsOrCarriedOn {ds : DecodeState} (hc : c.FitsOrCarriedOn d.mtu ds) :
    (deliverPass d c).cursor.FitsOrCarriedOn d.mtu ds := by
  by_cases hp : c.ds.phase = .awaitingPayload
  · rw [deliverPass_payload hp]
    exact payloadStage_fitsOrCarriedOn hp hc
  · have hpass := deliverPass_headerPass (d := d) hp
    generalize deliverPass d c = f at hpass ⊢
    cases hpass with
    | short => exact hc
    | held low => intro h; cases h
    | raised k a ht ho => intro h; cases h
    | started len a ht ho hsize => exact payloadStage_fitsOrCarriedOn rfl fun _ => .inl hsize

theorem runDelivery_fitsOrCarriedOn (d : Delivery) (v : Connection) (alloc : List Bool) :
    (runDelivery d v alloc).FitsOrCarriedOn d.mtu v.ds :=
  deliverLoop_keeps_of_pass (fun _ => deliverPass_fitsOrCarriedOn) (fun _ _ h => by cases h) _
    fun hp => .inr ⟨hp, rfl, rfl⟩

theorem Cursor.FramesFit.raise {k : ErrorKind} (h : ∀ bytes, .frame bytes ∈ c.trace → bytes.length ≤ 2047) :
    (c.raise d k).FramesFit :=
  ⟨Nat.le_refl _, Nat.le_refl _, fun bytes hb => h bytes (by simpa using hb)⟩

theorem Cursor.FramesFit.copyPayload (h : c.FramesFit) : (copyPayload d c).FramesFit := by
  have hr := copyPayload_received_toNat (d := d) h.received
  refine ⟨?_, ?_, h.emitted⟩
  · have := h.received
    rw [hr, copyPayload_target, copyCount]
    omega
  · have := h.partialFrame
    rw [hr, copyPayload_frame, Option.getD_some, List.length_append, List.length_take]
    omega

theorem Cursor.FramesFit.finish (h : c.FramesFit) : c.finish.FramesFit := by
  refine ⟨Nat.le_refl _, Nat.le_refl _, fun bytes hb => ?_⟩
  rw [Cursor.finish_trace, List.mem_append, List.mem_singleton, Event.frame.injEq] at hb
  rcases hb with hb | rfl
  · exact h.emitted bytes hb
  · have := h.partialFrame
    have := c.ds.received.isLt
    omega

theorem payloadStage_framesFit (h : c.FramesFit) : (payloadStage d c).cursor.FramesFit := by
  rw [payloadStage_cursor]
  by_cases he : (copyPayload d c).ds.received = (copyPayload d c).ds.target
  · rw [completeFrame_complete he]
    exact h.copyPayload.finish
  · rw [completeFrame_incomplete he]
    exact h.copyPayload

theorem deliverPass_framesFit (h : c.FramesFit) : (deliverPass d c).cursor.FramesFit := by
  by_cases hp : c.ds.phase = .awaitingPayload
  · rw [deliverPass_payload hp]
    exact payloadStage_framesFit h
  · have hpass := deliverPass_headerPass (d := d) hp
    generalize deliverPass d c = f at hpass ⊢
    cases hpass with
    | short => exact h
    | held low => exact ⟨h.received, h.partialFrame, h.emitted⟩
    | raised k a ht ho => exact .raise (ht ▸ h.emitted)
    | started len a ht ho hsize =>
      exact payloadStage_framesFit ⟨Nat.zero_le _, Nat.le_refl _, ht ▸ h.emitted⟩

theorem startCursor_framesFit {v : Connection} (h : v.ds.Inv) (alloc : List Bool) : (startCursor v alloc).FramesFit := by
  obtain ⟨-, hheader, hsplit, hpayload⟩ := h
  have emitted : ∀ bytes, .frame bytes ∈ (startCursor v alloc).trace → bytes.length ≤ 2047 := by simp
  cases hp : v.ds.phase with
  | awaitingHeader =>
    obtain ⟨-, -, hr, hf⟩ := hheader hp
    exact ⟨by simp [hr], by simp [hf], emitted⟩
  | headerSplit =>
    obtain ⟨-, hr, hf⟩ := hsplit hp
    exact ⟨by simp [hr], by simp [hf], emitted⟩
  | awaitingPayload =>
    obtain ⟨-, hlt, hlen⟩ := hpayload hp
    obtain ⟨f, hf, hn⟩ := Option.map_eq_some_iff.mp hlen
    exact ⟨hlt.le, by simp [hf, hn], emitted⟩

theorem runDelivery_framesFit (d : Delivery) {v : Connection} (h : v.ds.Inv) (alloc : List Bool) :
    (runDelivery d v alloc).FramesFit :=
  deliverLoop_keeps_of_pass (fun _ => deliverPass_framesFit) (fun _ ha => .raise ha.emitted) _
    (startCursor_framesFit h alloc)

end

end Sys2Proof.Machine
end

section
/-! SUPPORT. Whole commands: the answers of the stateless ones outside their contract, what a DELIVER answers, and what a
command keeps of the state. -/

namespace Sys2Proof.Machine

/-! ### The stateless commands outside their contract (60_exceptions.md R169) -/

section
variable {s : State} {frame hdr : List Byte} {mps : Nat} {len : Half}

theorem exec_encode_wide (hm : 65535 < mps) :
    exec (.encode frame mps) s = .next (s.recordFault .operandOutOfRange) := by
  have : ¬ fitsOperand mps = true := fun h => by have := fitsOperand_iff.mp h; omega
  simp [exec, execEncode, this]

theorem exec_encode_long (hm : mps ≤ 65535) (hn : 2047 < frame.length) :
    exec (.encode frame mps) s = .next (s.recordFault .encodeLengthOutOfRange) := by
  have : ¬ fitsLength frame.length = true := fun h => by have := fitsLength_iff.mp h; omega
  simp [exec, execEncode, fitsOperand_iff.mpr hm, this]

theorem exec_encode_zero (hn : frame.length ≤ 2047) :
    exec (.encode frame 0) s = .next (s.recordFault .maxPacketSizeZero) := by
  simp [exec, execEncode, fitsOperand_iff.mpr (Nat.zero_le 65535), fitsLength_iff.mpr hn]

theorem exec_encodeHeader_long (h : 2047 < len.toNat) :
    exec (.encodeHeader len) s = .next (s.recordFault .headerLengthOutOfRange) := by
  have : ¬ fitsLength len.toNat = true := fun h' => by have := fitsLength_iff.mp h'; omega
  simp [exec, execEncodeHeader, this]

theorem exec_decodeHeader_malformed (h : hdr.length ≠ 4) :
    exec (.decodeHeader hdr) s = .next (s.recordFault .operandOutOfRange) := by
  simp [exec, execDecodeHeader, isHeaderOperand_iff, h]
end

/-! ### DELIVER -/

section
variable {s t : State}

/-- Everything a DELIVER can answer. -/
theorem exec_deliver_next {buf : List Byte} {mtu : Nat} {alloc : List Bool}
    (h : exec (.deliver buf mtu alloc) s = .next t) :
    (∃ r, t = s.recordFault r) ∨ t = s.endDelivery (runDelivery ⟨s.conn, buf, mtu⟩ s.connection alloc) := by
  by_cases hm : mtu ≤ 65535
  · cases hb : s.connection.ds.bound with
    | false =>
      rw [exec_deliver_unbound hb hm] at h
      cases h
      exact .inl ⟨_, rfl⟩
    | true =>
      rw [exec_deliver hb hm] at h
      cases h
      exact .inr rfl
  · rw [exec_deliver_wide (by omega)] at h
    cases h
    exact .inl ⟨_, rfl⟩

@[simp] theorem State.eventsSince_recordFault (s : State) (r : Fault) : s.eventsSince (s.recordFault r) = [] := by
  simp [State.eventsSince]

@[simp] theorem State.eventsSince_endDelivery (s : State) (c : Cursor) : s.eventsSince (s.endDelivery c) = c.trace := by
  simp [State.eventsSince, Output.events]

theorem State.endDelivery_eq (s : State) (c : Cursor) :
    s.endDelivery c = (s.setConnection ⟨c.ds, c.draws⟩).emit (.trace c.trace) := rfl

theorem State.endDelivery_connection (h : connsWf s.conns = true) (c : Cursor) :
    (s.endDelivery c).connection = ⟨c.ds, c.draws⟩ :=
  State.setConnection_connection h _

theorem runDelivery_inv {v : Connection} (hi : v.ds.Inv) (hb : v.ds.bound = true) (d : Delivery) (alloc : List Bool) :
    (runDelivery d v alloc).ds.Inv := by
  obtain ⟨hinv, -, -⟩ := deliverLoop_keeps (startCursor_ready hi hb d alloc) (d.buf.length + 1)
  exact hinv

/-! ### What a command keeps -/

theorem exec_keeps_inv {i : Instr} (hs : s.Inv) (h : exec i s = .next t) : t.Inv := by
  rcases exec_cases i s with ⟨r, e⟩ | ⟨o, e⟩ | ⟨-, e⟩ | ⟨-, e⟩ | ⟨hb, buf, mtu, alloc, -, e⟩ <;> (rw [e] at h; cases h)
  · exact hs.recordFault r
  · exact hs.emit o
  · exact (hs.setConnection DecodeState.boundEmpty_inv).emit _
  · exact (hs.setConnection (v := ⟨.unbound, s.connection.draws⟩) Connection.fresh_inv).emit _
  · exact (hs.setConnection (runDelivery_inv hs.connection hb _ _)).emit _

theorem State.OthersUnchanged.refl (s : State) : State.OthersUnchanged s s := ⟨rfl, rfl, fun _ _ => rfl⟩

theorem step_keeps_inv (hs : s.Inv) (h : step s = .next t) : t.Inv := by
  cases hq : s.pending with
  | nil =>
    rw [step_idle hq] at h
    cases h
    exact hs
  | cons c rest =>
    have taken : State.Inv { s with pending := rest, conn := c.conn } := hs
    cases hd : decode c with
    | instr i => exact exec_keeps_inv taken (step_instr hq hd ▸ h)
    | reservedCommand w =>
      rw [step_reserved hq hd] at h
      cases h
      exact taken.recordFault _

end

end Sys2Proof.Machine
end

section
/-! PROOFS. The statements of 10_state.md. -/

namespace Sys2Proof.Machine

/-- Settles O30, by `step_keeps_inv`: of all a step can do, only a DELIVER leaves a decode state that is neither the empty
one nor the unbound one, and there the invariant is the loop's own. -/
theorem decodeInvariantIsKept : Obligations.DecodeInvariantIsKept :=
  fun _ _ hs h => step_keeps_inv hs h

/-- Settles O21: every check of these three commands reads operands only, so one case split serves all states. -/
theorem statelessCommandsArePure : Obligations.StatelessCommandsArePure := by
  rintro i (⟨frame, mps, rfl⟩ | ⟨len, rfl⟩ | ⟨hdr, rfl⟩)
  · by_cases hm : mps ≤ 65535
    · by_cases hn : frame.length ≤ 2047
      · rcases Nat.eq_zero_or_pos mps with rfl | h0
        · exact .inl ⟨_, fun _ => exec_encode_zero hn⟩
        · exact .inr ⟨_, fun _ => exec_encode hn h0 hm⟩
      · exact .inl ⟨_, fun _ => exec_encode_long hm (by omega)⟩
    · exact .inl ⟨_, fun _ => exec_encode_wide (by omega)⟩
  · by_cases hn : len.toNat ≤ 2047
    · exact .inr ⟨_, fun _ => exec_encodeHeader hn⟩
    · exact .inl ⟨_, fun _ => exec_encodeHeader_long (by omega)⟩
  · by_cases h4 : hdr.length = 4
    · exact .inr ⟨_, fun _ => exec_decodeHeader h4⟩
    · exact .inl ⟨_, fun _ => exec_decodeHeader_malformed h4⟩

/-- Settles O47, by `runDelivery_fitsOrCarriedOn`; a DELIVER that faults leaves the frame as it was and emits nothing. -/
theorem frameInProgressFitsItsMtu : Obligations.FrameInProgressFitsItsMtu := by
  intro s t buf mtu alloc hs h hp
  rcases exec_deliver_next h with ⟨r, rfl⟩ | rfl
  · exact .inr ⟨hp, rfl, State.eventsSince_recordFault s r⟩
  · rw [State.endDelivery_connection hs.1] at hp ⊢
    rw [State.eventsSince_endDelivery]
    exact runDelivery_fitsOrCarriedOn ⟨s.conn, buf, mtu⟩ s.connection alloc hp

/-- Settles O48, by `runDelivery_framesFit`: a frame is emitted with the bytes received, an 11-bit count. -/
theorem emittedFramesFitTheLengthField : Obligations.EmittedFramesFitTheLengthField := by
  intro s t buf mtu alloc bytes hs h hmem
  rcases exec_deliver_next h with ⟨r, rfl⟩ | rfl
  · simp at hmem
  · rw [State.eventsSince_endDelivery] at hmem
    exact (runDelivery_framesFit _ hs.connection alloc).emitted bytes hmem

/-- Settles O49: what one pass does is `deliverPass_advances`, with `deliverPass_again_offset` for a header; the loop ends
before its fuel does by `deliverLoop_fuel`. -/
theorem deliverEndsInBoundedPasses : Obligations.DeliverEndsInBoundedPasses := by
  refine ⟨fun d c c' hi hb ho => ?_, fun d v alloc fuel hi hb hfuel => ?_⟩
  · have hadv := deliverPass_advances (d := d) ⟨hi, hb, ho⟩
    have hle := deliverPass_offset_le d c
    refine ⟨fun e => ?_, ?_⟩
    · rw [e] at hadv
      obtain ⟨hi', hb', hlt, hend⟩ := hadv
      exact ⟨hi', hb', hlt, hend, fun hp => deliverPass_again_offset hp e⟩
    · rintro (e | e) <;> rw [e] at hadv hle
      · obtain ⟨-, -, -, hend⟩ := hadv
        exact ⟨hle, hend⟩
      · obtain ⟨-, hend⟩ := hadv
        exact ⟨hle, hend.trans (Nat.le_succ _)⟩
  · have hr := startCursor_ready hi hb d alloc
    obtain ⟨-, -, hend⟩ := deliverLoop_keeps hr (d.buf.length + 1)
    exact ⟨deliverLoop_fuel hr (by simp) hfuel, hend⟩

/-- A command that is a function of its operands does the same in both states: setting a connection to what it holds
changes nothing. -/
theorem stateless_reads_only_its_connection {s s' : State} {i : Instr} (hs : connsWf s.conns = true)
    (hs' : connsWf s'.conns = true) (hc : s'.connection = s.connection)
    (hi : (∃ r, ∀ s, exec i s = .next (s.recordFault r)) ∨ (∃ o, ∀ s, exec i s = .next (s.emit o))) :
    (∃ r, exec i s = .next (s.recordFault r) ∧ exec i s' = .next (s'.recordFault r))
      ∨ ∃ v o, exec i s = .next ((s.setConnection v).emit o) ∧ exec i s' = .next ((s'.setConnection v).emit o) := by
  rcases hi with ⟨r, e⟩ | ⟨o, e⟩
  · exact .inl ⟨r, e s, e s'⟩
  · refine .inr ⟨s.connection, o, ?_, ?_⟩
    · rw [State.setConnection_self hs, e]
    · rw [← hc, State.setConnection_self hs', e]

/-- Settles O54: BIND, UNBIND and DELIVER branch on their own connection and set it; the rest read no state (O21). -/
theorem commandsReadOnlyTheirConnection : Obligations.CommandsReadOnlyTheirConnection := by
  intro s s' i hs hs' hn hc
  have stateless := fun hi => stateless_reads_only_its_connection hs hs' hc (statelessCommandsArePure i hi)
  cases i with
  | bind =>
    cases hb : s.connection.ds.bound with
    | false =>
      exact .inr ⟨_, _, exec_bind_unbound hb, hc ▸ exec_bind_unbound (hc ▸ hb)⟩
    | true => exact .inl ⟨_, exec_bind_bound hb, exec_bind_bound (hc ▸ hb)⟩
  | unbind =>
    cases hb : s.connection.ds.bound with
    | false => exact .inl ⟨_, exec_unbind_unbound hb, exec_unbind_unbound (hc ▸ hb)⟩
    | true => exact .inr ⟨_, _, exec_unbind_bound hb, hc ▸ exec_unbind_bound (hc ▸ hb)⟩
  | deliver buf mtu alloc =>
    by_cases hm : mtu ≤ 65535
    · cases hb : s.connection.ds.bound with
      | false => exact .inl ⟨_, exec_deliver_unbound hb hm _ _, exec_deliver_unbound (hc ▸ hb) hm _ _⟩
      | true =>
        refine .inr ⟨_, _, exec_deliver hb hm buf alloc, ?_⟩
        rw [exec_deliver (hc ▸ hb) hm, hn, hc, State.endDelivery_eq]
    · exact .inl ⟨_, exec_deliver_wide (by omega) _ _, exec_deliver_wide (by omega) _ _⟩
  | encode frame mps => exact stateless (.inl ⟨frame, mps, rfl⟩)
  | encodeHeader len => exact stateless (.inr (.inl ⟨len, rfl⟩))
  | decodeHeader hdr => exact stateless (.inr (.inr ⟨hdr, rfl⟩))

/-- Settles O55, by `exec_cases`: a command records a fault or an output, and sets at most its own connection. -/
theorem commandsChangeOnlyTheirConnection : Obligations.CommandsChangeOnlyTheirConnection := by
  intro s t i h
  have stored : ∀ v o, State.OthersUnchanged s ((s.setConnection v).emit o) :=
    fun v o => State.emit_others (State.setConnection_others s v) o
  rcases exec_cases i s with ⟨r, e⟩ | ⟨o, e⟩ | ⟨-, e⟩ | ⟨-, e⟩ | ⟨-, buf, mtu, alloc, -, e⟩ <;> (rw [e] at h; cases h)
  · exact State.recordFault_others s r
  · exact State.emit_others (.refl s) o
  · exact stored _ _
  · exact stored _ _
  · exact stored _ _

/-- Settles O28: no connection is listed at power-on, and one that is not listed is unbound. -/
theorem noConnectionIsBoundAtReset : Obligations.NoConnectionIsBoundAtReset :=
  fun _ => ⟨rfl, rfl⟩

/-- Settles O29: the empty map is canonical and lists no connection. -/
theorem resetMeetsTheDecodeInvariant : Obligations.ResetMeetsTheDecodeInvariant :=
  ⟨rfl, fun _ he => absurd he List.not_mem_nil⟩

end Sys2Proof.Machine
end

section
/-! SUPPORT. What the statements about memory and order need: a 16-bit read as part of a word, stores at two numbers,
and of whole commands that they leave the queue alone, record one thing each and store at their own number. -/

namespace Sys2Proof.Machine

/-! ### Reads and stores -/

/-- A 16-bit read inside a 32-bit word: its two bytes in the two low places. -/
theorem setWidth_le16 (buf : List Byte) (i : Nat) :
    (le16 buf i).setWidth 32 = (byteAt buf i).setWidth 32 ||| (byteAt buf (i + 1)).setWidth 32 <<< 8 := by
  have low (b : Byte) : (b.setWidth 16).setWidth 32 = b.setWidth 32 := BitVec.setWidth_setWidth (by decide)
  have high (b : Byte) : (b.setWidth 16 <<< 8).setWidth 32 = b.setWidth 32 <<< 8 := by
    apply BitVec.eq_of_toNat_eq
    simp only [BitVec.toNat_setWidth, BitVec.toNat_shiftLeft, Nat.shiftLeft_eq]
    omega
  rw [le16, BitVec.setWidth_or, low, high]

/-- Stores at two numbers may be made in either order. -/
theorem storeConn_comm {l : List (Nat × Connection)} (hl : connsWf l = true) {c k : Nat} (hne : c ≠ k)
    (v w : Connection) : storeConn (storeConn l c v) k w = storeConn (storeConn l k w) c v := by
  have hc := storeConn_keeps_wf c v hl
  have hk := storeConn_keeps_wf k w hl
  refine connsWf_ext (storeConn_keeps_wf k w hc) (storeConn_keeps_wf c v hk) fun j => ?_
  by_cases hjk : j = k
  · subst hjk
    rw [lookupConn_storeConn_same _ _ hc, lookupConn_storeConn_other hne.symm, lookupConn_storeConn_same _ _ hl]
  · rw [lookupConn_storeConn_other hjk]
    by_cases hjc : j = c
    · subst hjc
      rw [lookupConn_storeConn_same _ _ hl, lookupConn_storeConn_same _ _ hk]
    · simp only [lookupConn_storeConn_other hjc, lookupConn_storeConn_other hjk]

/-! ### Whole commands -/

section
variable {s t : State}

/-- A command does the same with one more command waiting, and leaves that one waiting last. -/
theorem exec_send (i : Instr) (s : State) (cmd : Command) :
    ∃ t, exec i s = .next t ∧ exec i (s.send cmd) = .next (t.send cmd) := by
  have stateless (hi : (∃ frame mps, i = .encode frame mps) ∨ (∃ len, i = .encodeHeader len)
      ∨ ∃ hdr, i = .decodeHeader hdr) : ∃ t, exec i s = .next t ∧ exec i (s.send cmd) = .next (t.send cmd) := by
    rcases statelessCommandsArePure i hi with ⟨r, e⟩ | ⟨o, e⟩
    · exact ⟨_, e s, e (s.send cmd)⟩
    · exact ⟨_, e s, e (s.send cmd)⟩
  cases i with
  | bind =>
    cases hb : s.connection.ds.bound with
    | false => exact ⟨_, exec_bind_unbound hb, exec_bind_unbound hb⟩
    | true => exact ⟨_, exec_bind_bound hb, exec_bind_bound hb⟩
  | unbind =>
    cases hb : s.connection.ds.bound with
    | false => exact ⟨_, exec_unbind_unbound hb, exec_unbind_unbound hb⟩
    | true => exact ⟨_, exec_unbind_bound hb, exec_unbind_bound hb⟩
  | deliver buf mtu alloc =>
    by_cases hm : mtu ≤ 65535
    · cases hb : s.connection.ds.bound with
      | false => exact ⟨_, exec_deliver_unbound hb hm buf alloc, exec_deliver_unbound (s := s.send cmd) hb hm buf alloc⟩
      | true => exact ⟨_, exec_deliver hb hm buf alloc, exec_deliver (s := s.send cmd) hb hm buf alloc⟩
    · exact ⟨_, exec_deliver_wide (by omega) buf alloc, exec_deliver_wide (by omega) buf alloc⟩
  | encode frame mps => exact stateless (.inl ⟨frame, mps, rfl⟩)
  | encodeHeader len => exact stateless (.inr (.inl ⟨len, rfl⟩))
  | decodeHeader hdr => exact stateless (.inr (.inr ⟨hdr, rfl⟩))

/-- From `s` to `t` exactly one output or exactly one fault is recorded, as that of connection `c`. -/
def State.RecordsOne (c : Nat) (s t : State) : Prop :=
  (∃ o, t.outputs = s.outputs ++ [⟨c, o⟩] ∧ t.faults = s.faults)
    ∨ ∃ r, t.outputs = s.outputs ∧ t.faults = s.faults ++ [⟨c, r⟩]

theorem State.recordFault_recordsOne (s : State) (r : Fault) : State.RecordsOne s.conn s (s.recordFault r) :=
  .inr ⟨r, rfl, rfl⟩

theorem State.emit_recordsOne (s : State) (o : Output) : State.RecordsOne s.conn s (s.emit o) :=
  .inl ⟨o, rfl, rfl⟩

theorem State.setConnection_emit_recordsOne (s : State) (v : Connection) (o : Output) :
    State.RecordsOne s.conn s ((s.setConnection v).emit o) :=
  .inl ⟨o, rfl, rfl⟩

theorem exec_recordsOne {i : Instr} (h : exec i s = .next t) : State.RecordsOne s.conn s t := by
  rcases exec_cases i s with ⟨r, e⟩ | ⟨o, e⟩ | ⟨-, e⟩ | ⟨-, e⟩ | ⟨-, buf, mtu, alloc, -, e⟩ <;> (rw [e] at h; cases h)
  · exact State.recordFault_recordsOne s r
  · exact State.emit_recordsOne s o
  · exact State.setConnection_emit_recordsOne s _ _
  · exact State.setConnection_emit_recordsOne s _ _
  · exact State.setConnection_emit_recordsOne s _ _

theorem step_recordsOne {c : Command} {rest : List Command} (hq : s.pending = c :: rest) (h : step s = .next t) :
    State.RecordsOne c.conn s t := by
  cases hd : decode c with
  | instr i => exact exec_recordsOne (step_instr hq hd ▸ h)
  | reservedCommand w =>
    rw [step_reserved hq hd] at h
    cases h
    exact State.recordFault_recordsOne { s with pending := rest, conn := c.conn } _

/-- In two states that agree on its connection, a command stores the same there; one that sets no connection stores what
is there already. -/
theorem exec_stores_same (s s' : State) {i : Instr} (hs : connsWf s.conns = true) (hs' : connsWf s'.conns = true)
    (hn : s'.conn = s.conn) (hc : s'.connection = s.connection) (h : exec i s = .next t) :
    ∃ v t', t.conns = storeConn s.conns s.conn v ∧ exec i s' = .next t' ∧ t'.conns = storeConn s'.conns s.conn v := by
  rcases commandsReadOnlyTheirConnection s s' i hs hs' hn hc with ⟨r, e, e'⟩ | ⟨v, o, e, e'⟩ <;> (rw [e] at h; cases h)
  · refine ⟨s.connection, _, (storeConn_lookupConn hs _).symm, e', ?_⟩
    rw [← hc, ← hn]
    exact (storeConn_lookupConn hs' _).symm
  · exact ⟨v, _, rfl, e', by rw [← hn]; rfl⟩

end

end Sys2Proof.Machine
end

section
/-! PROOFS. The statements of 20_memory.md. -/

namespace Sys2Proof.Machine

/-- Settles O16, by `setWidth_le16`: the high half's two bytes move up to the two high places of the word. -/
theorem splitHeaderIsTheSameWord : Obligations.SplitHeaderIsTheSameWord := by
  intro buf i
  simp only [splitHeader, le32, setWidth_le16, BitVec.shiftLeft_or_distrib, ← BitVec.shiftLeft_add, BitVec.or_assoc]

/-- Settles O6, by `exec_send`; a reserved word records its fault whatever else waits. -/
theorem laterCommandsWaitTheirTurn : Obligations.LaterCommandsWaitTheirTurn := by
  intro s c hne
  obtain ⟨oldest, rest, hq⟩ := List.exists_cons_of_ne_nil hne
  have hq' : (s.send c).pending = oldest :: (rest ++ [c]) := by rw [State.send_pending, hq, List.cons_append]
  cases hd : decode oldest with
  | instr i =>
    rw [step_instr hq hd, step_instr hq' hd]
    exact exec_send i { s with pending := rest, conn := oldest.conn } c
  | reservedCommand w => exact ⟨_, step_reserved hq hd, step_reserved hq' hd⟩

/-- Settles O7, by `step_recordsOne`. -/
theorem outputsAreAppendedInOrder : Obligations.OutputsAreAppendedInOrder := by
  intro s t h
  refine ⟨fun hq => ?_, fun c rest hq => step_recordsOne hq h⟩
  rw [step_idle hq] at h
  cases h
  exact ⟨rfl, rfl⟩

/-- Settles O56: by `exec_stores_same` each command stores the same at its own number whether it runs first or second,
and by `storeConn_comm` the two stores commute. -/
theorem commandsOnTwoConnectionsCommute : Obligations.CommandsOnTwoConnectionsCommute := by
  intro s t u c c' i i' hs hne ht hu
  obtain ⟨v₀, -, htc₀, -, -⟩ :=
    exec_stores_same { s with conn := c } { s with conn := c } hs hs rfl rfl ht
  have htwf : connsWf t.conns = true := htc₀ ▸ storeConn_keeps_wf c v₀ hs
  have hother : lookupConn s.conns c' = lookupConn t.conns c' := by
    rw [htc₀]
    exact (lookupConn_storeConn_other hne.symm _ _).symm
  obtain ⟨v', t', huc, ht', htc'⟩ :=
    exec_stores_same { t with conn := c' } { s with conn := c' } htwf hs rfl hother hu
  have htwf' : connsWf t'.conns = true := htc' ▸ storeConn_keeps_wf c' v' hs
  have hother' : lookupConn t'.conns c = lookupConn s.conns c := by
    rw [htc']
    exact lookupConn_storeConn_other hne _ _
  obtain ⟨v, u', htc, hu', huc'⟩ :=
    exec_stores_same { s with conn := c } { t' with conn := c } hs htwf' rfl hother' ht
  refine ⟨t', u', ht', hu', ?_⟩
  calc u'.conns = storeConn (storeConn s.conns c' v') c v := by rw [huc', htc']
    _ = storeConn (storeConn s.conns c v) c' v' := storeConn_comm hs hne.symm v' v
    _ = u.conns := by rw [huc, htc]

end Sys2Proof.Machine
end

section
/-! SUPPORT. What the encoding of commands and of headers needs: the two fields of a command word and what the decoder
makes of them, and the four fields of a header word and what the header test makes of them. -/

namespace Sys2Proof.Machine

/-! ### Command words (30_encoding.md R70, R72) -/

theorem opcField_toNat (word : Word) : (opcField word).toNat = word.toNat % 16 := by
  simp [opcField]

theorem reservedField_toNat (word : Word) : (reservedField word).toNat = word.toNat / 16 := by
  rw [reservedField, BitVec.extractLsb'_toNat, Nat.shiftRight_eq_div_pow]
  omega

/-- A command word is its two fields. -/
theorem reservedField_append_opcField (word : Word) : reservedField word ++ opcField word = word :=
  BitVec.extractLsb'_append_extractLsb' (w := 28) (len := 4)

theorem opcOf_range (i : Instr) : 1 ≤ (opcOf i).toNat ∧ (opcOf i).toNat ≤ 6 := by
  cases i <;> simp [opcOf]

theorem decode_encodeCommand (conn : Nat) (i : Instr) : decode (encodeCommand conn i) = .instr i := by
  have statement : Laws.CommandWord.Statement i := by
    cases i with
    | bind => exact Laws.CommandWord.bind
    | unbind => exact Laws.CommandWord.unbind
    | deliver buf mtu alloc => exact Laws.CommandWord.deliver buf mtu alloc
    | encode frame mps => exact Laws.CommandWord.encode frame mps
    | encodeHeader len => exact Laws.CommandWord.encodeHeader len
    | decodeHeader hdr => exact Laws.CommandWord.decodeHeader hdr
  obtain ⟨-, -, -, hdecode⟩ := statement
  exact hdecode conn

/-- Everything the decoder can answer: the rejection of a reserved word, or an instruction whose `opc` the word has. -/
theorem decode_cases (c : Command) :
    ((reservedField c.word ≠ 0#28 ∨ (opcField c.word).toNat = 0 ∨ 7 ≤ (opcField c.word).toNat)
        ∧ decode c = .reservedCommand c.word)
      ∨ ∃ i, decode c = .instr i ∧ reservedField c.word = 0#28 ∧ opcField c.word = opcOf i := by
  by_cases hres : reservedField c.word = 0#28
  · have command {i : Instr} (hopc : (opcField c.word).toNat = (opcOf i).toNat) (hi : decode c = .instr i) :
        ∃ i, decode c = .instr i ∧ reservedField c.word = 0#28 ∧ opcField c.word = opcOf i :=
      ⟨i, hi, hres, BitVec.eq_of_toNat_eq hopc⟩
    have hdecode := decode.eq_1 c
    rw [if_neg (not_not_intro hres)] at hdecode
    split at hdecode
    · exact .inr (command ‹_› hdecode)
    · exact .inr (command ‹_› hdecode)
    · exact .inr (command ‹_› hdecode)
    · exact .inr (command ‹_› hdecode)
    · exact .inr (command ‹_› hdecode)
    · exact .inr (command ‹_› hdecode)
    · exact .inl ⟨.inr (by simp only [imp_false] at *; omega), hdecode⟩
  · exact .inl ⟨.inl hres, by rw [decode, if_pos hres]⟩

/-- A command that decodes to an instruction has exactly that instruction's word. -/
theorem word_of_decode_instr {c : Command} {i : Instr} (h : decode c = .instr i) : c.word = encodeWord i := by
  rcases decode_cases c with ⟨-, e⟩ | ⟨j, e, hres, hopc⟩ <;> (rw [h] at e; cases e)
  calc c.word = reservedField c.word ++ opcField c.word := (reservedField_append_opcField c.word).symm
    _ = encodeWord i := by rw [hres, hopc, encodeWord]

theorem decode_reserved_word {c : Command}
    (h : c.word.toNat % 16 = 0 ∨ 7 ≤ c.word.toNat % 16 ∨ c.word.toNat / 16 ≠ 0) :
    decode c = .reservedCommand c.word := by
  rcases decode_cases c with ⟨-, e⟩ | ⟨i, -, hres, hopc⟩
  · exact e
  · have hrange := opcOf_range i
    have hhigh := reservedField_toNat c.word
    rw [← hopc, opcField_toNat] at hrange
    rw [hres, BitVec.toNat_zero] at hhigh
    omega

theorem decode_command_word {c : Command}
    (h : 1 ≤ c.word.toNat % 16 ∧ c.word.toNat % 16 ≤ 6 ∧ c.word.toNat / 16 = 0) : ∃ i, decode c = .instr i := by
  rcases decode_cases c with ⟨hword, -⟩ | ⟨i, e, -, -⟩
  · rw [Ne, ← BitVec.toNat_inj, reservedField_toNat, opcField_toNat, BitVec.toNat_zero] at hword
    omega
  · exact ⟨i, e⟩

/-! ### Header words (30_encoding.md R60 to R63) -/

/-- Bits 26:16 of a header word, where the complement of its length stands (30_encoding.md R60). -/
def headerNcheck (w : Word) : Len := w.extractLsb' 16 11

theorem headerCheck_eq (w : Word) : headerCheck w = ~~~headerNcheck w := by
  ext i hi
  simp [headerCheck, headerNcheck, show 16 + i < 32 by omega]

theorem headerValid_iff (w : Word) : headerValid w = true ↔ headerNcheck w = ~~~headerLen w := by
  rw [headerValid, beq_iff_eq, headerCheck_eq, ← BitVec.not_eq_comm, eq_comm]

/-- A header word is its four fields: bits 31:27, 26:16, 15:11 and 10:0. -/
theorem header_fields_append (w : Word) :
    w.extractLsb' 27 5 ++ (headerNcheck w ++ (w.extractLsb' 11 5 ++ headerLen w)) = w := by
  rw [headerLen, headerNcheck, BitVec.extractLsb'_append_extractLsb'_eq_extractLsb' (show 11 = 0 + 11 from rfl),
    BitVec.extractLsb'_append_extractLsb'_eq_extractLsb' (show 16 = 0 + (5 + 11) from rfl),
    BitVec.extractLsb'_append_extractLsb'_eq_extractLsb' (show 27 = 0 + (11 + (5 + 11)) from rfl)]
  exact BitVec.extractLsb'_eq_self

theorem extractLsb'_toNat_eq_and (x : Word) : (x.extractLsb' 0 11).toNat = (x &&& 0x7ff#32).toNat := by
  rw [BitVec.extractLsb'_toNat, BitVec.toNat_and, Nat.shiftRight_zero]
  exact (Nat.and_two_pow_sub_one_eq_mod x.toNat 11).symm

/-- The header test and the length see nothing of the ignored bits 15:11 and 31:27 (30_encoding.md R62, R74). -/
theorem header_congr {w w' : Word} (h : w &&& 0x07ff07ff#32 = w' &&& 0x07ff07ff#32) :
    headerLen w = headerLen w' ∧ headerValid w = headerValid w' := by
  have len_and (x : Word) : headerLen (x &&& 0x07ff07ff#32) = headerLen x := by
    rw [headerLen, BitVec.extractLsb'_and]
    exact BitVec.and_allOnes
  have ncheck_and (x : Word) : headerNcheck (x &&& 0x07ff07ff#32) = headerNcheck x := by
    rw [headerNcheck, BitVec.extractLsb'_and]
    exact BitVec.and_allOnes
  have hlen : headerLen w = headerLen w' := by rw [← len_and w, h, len_and]
  have hncheck : headerNcheck w = headerNcheck w' := by rw [← ncheck_and w, h, ncheck_and]
  exact ⟨hlen, by simp only [headerValid, headerCheck_eq, hlen, hncheck]⟩

/-- The valid header word with the given length, bits 15:11 and bits 31:27. -/
def validHeader (p : Len × BitVec 5 × BitVec 5) : Word := p.2.2 ++ (~~~p.1 ++ (p.2.1 ++ p.1))

theorem headerLen_validHeader (p : Len × BitVec 5 × BitVec 5) : headerLen (validHeader p) = p.1 := by
  rw [headerLen, validHeader, BitVec.extractLsb'_append_eq_of_add_le (by decide),
    BitVec.extractLsb'_append_eq_of_add_le (by decide), BitVec.extractLsb'_append_eq_right]

theorem headerNcheck_validHeader (p : Len × BitVec 5 × BitVec 5) : headerNcheck (validHeader p) = ~~~p.1 := by
  rw [headerNcheck, validHeader, BitVec.extractLsb'_append_eq_of_add_le (by decide), BitVec.extractLsb'_append_eq_left]

/-- A valid header word is a choice of its length and of its ignored bits (30_encoding.md R63). -/
def validHeaderEquiv : { w : Word // headerValid w = true } ≃ Len × BitVec 5 × BitVec 5 where
  toFun w := (headerLen w, w.1.extractLsb' 11 5, w.1.extractLsb' 27 5)
  invFun p := ⟨validHeader p, by rw [headerValid_iff, headerNcheck_validHeader, headerLen_validHeader]⟩
  left_inv := by
    rintro ⟨w, hw⟩
    rw [Subtype.mk.injEq]
    rw [validHeader, ← (headerValid_iff w).mp hw, header_fields_append]
  right_inv p := by
    refine Prod.ext (headerLen_validHeader p) (Prod.ext ?_ ?_)
    · show (validHeader p).extractLsb' 11 5 = p.2.1
      rw [validHeader, BitVec.extractLsb'_append_eq_of_add_le (by decide),
        BitVec.extractLsb'_append_eq_of_add_le (by decide), BitVec.extractLsb'_append_eq_left]
    · show (validHeader p).extractLsb' 27 5 = p.2.2
      rw [validHeader, BitVec.extractLsb'_append_eq_left]

theorem natCard_bitVec (n : Nat) : Nat.card (BitVec n) = 2 ^ n := by
  rw [Nat.card_congr BitVec.equivFin.toEquiv, Nat.card_fin]

/-- The encoder's word is the length below its complement (30_encoding.md R61). -/
theorem headerWord_eq_append (n : Half) : headerWord n = ~~~n ++ n := by
  rw [headerWord, BitVec.or_comm, ← BitVec.setWidth_append_eq_shiftLeft_setWidth_or, BitVec.setWidth_eq]

theorem headerWord_toNat (n : Half) : (headerWord n).toNat = n.toNat + (65535 - n.toNat) * 65536 := by
  rw [headerWord_eq_append, BitVec.toNat_append, ← Nat.shiftLeft_add_eq_or_of_lt n.isLt, BitVec.toNat_not,
    Nat.shiftLeft_eq]
  omega

theorem headerLen_headerWord (n : Half) : headerLen (headerWord n) = n.extractLsb' 0 11 := by
  rw [headerWord_eq_append, headerLen, BitVec.extractLsb'_append_eq_of_add_le (by decide)]

theorem headerValid_headerWord (n : Half) : headerValid (headerWord n) = true := by
  rw [headerValid_iff, headerLen_headerWord, headerWord_eq_append, headerNcheck,
    BitVec.extractLsb'_append_eq_of_le (by decide), BitVec.extractLsb'_not_of_lt (by decide)]

end Sys2Proof.Machine
end

section
/-! SUPPORT. A header that arrives, whole or split: the DELIVER that opens with it is what the word leads to, followed by
the same DELIVER of the bytes after it; and the pass that takes a whole unit. -/

namespace Sys2Proof.Machine

/-! ### What a header word leads to -/

/-- The part of a pass after a header word has been read (41_decode.md R117 to R125). -/
def wordStage (d : Delivery) (w : Word) (c : Cursor) : Flow :=
  match acceptHeader d w c with
  | .again c' => payloadStage d c'
  | .exit c' => .exit c'
  | .abort c' => .abort c'

/-- The loop, carried on after a pass that ended as `f` says (41_decode.md R110). -/
def Flow.carryOn (d : Delivery) (n : Nat) : Flow → Cursor
  | .again c => deliverLoop d n c
  | .exit c => postCheck d c
  | .abort c => c

section
variable {d d' : Delivery} {c a : Cursor} {w w' : Word}

theorem deliverLoop_succ (d : Delivery) (n : Nat) (c : Cursor) :
    deliverLoop d (n + 1) c = (deliverPass d c).carryOn d n := by
  rw [deliverLoop]
  cases deliverPass d c <;> rfl

theorem headerStage_word (h : readHeader d c = .word w a) : headerStage d c = wordStage d w a := by
  rw [headerStage, h]
  rfl

/-- The checks of a header word read its length and its validity only. -/
theorem wordStage_congr (hlen : headerLen w = headerLen w') (hvalid : headerValid w = headerValid w')
    (d : Delivery) (c : Cursor) : wordStage d w c = wordStage d w' c := by
  rw [wordStage, wordStage, acceptHeader, acceptHeader, hlen, hvalid]

theorem wordStage_shift {pre : List Byte} (h : d.After pre d') (tr : List Event) (w : Word) (c : Cursor) :
    wordStage d w (c.shift pre.length tr) = (wordStage d' w c).map (Cursor.shift pre.length tr) := by
  simp only [wordStage, acceptHeader_shift h]
  cases acceptHeader d' w c with
  | again b => exact payloadStage_shift h tr b
  | exit b => rfl
  | abort b => rfl

theorem Flow.carryOn_shift {pre : List Byte} (h : d.After pre d') (tr : List Event) (n : Nat) (f : Flow) :
    (f.map (Cursor.shift pre.length tr)).carryOn d n = (f.carryOn d' n).shift pre.length tr := by
  cases f with
  | again b => exact deliverLoop_shift h tr n b
  | exit b => exact postCheck_shift h tr b
  | abort b => rfl

/-- A loop that starts by reading the header word `w` in the bytes `pre` goes on as the word leads to, from what follows
them. -/
theorem deliverLoop_word {pre : List Byte} (h : d.After pre d') (hp : c.ds.phase ≠ .awaitingPayload)
    (hr : readHeader d c = .word w (a.shift pre.length [])) (n : Nat) :
    deliverLoop d (n + 1) c = ((wordStage d' w a).carryOn d' n).shift pre.length [] := by
  rw [deliverLoop_succ, deliverPass_header hp, headerStage_word hr, wordStage_shift h, Flow.carryOn_shift h]
end

/-! ### A DELIVER that opens with a header -/

section
variable {v : Connection} {w w' : Word}

/-- A whole header where one is expected (41_decode.md R115). -/
theorem runDelivery_whole_header (hp : v.ds.phase = .awaitingHeader) (w : Word) (rest : List Byte) (conn mtu : Nat)
    (alloc : List Bool) :
    runDelivery ⟨conn, bytes32LE w ++ rest, mtu⟩ v alloc
      = ((wordStage ⟨conn, rest, mtu⟩ w (startCursor v alloc)).carryOn ⟨conn, rest, mtu⟩ (4 + rest.length)).shift 4 [] := by
  have hread : readHeader ⟨conn, bytes32LE w ++ rest, mtu⟩ (startCursor v alloc)
      = .word w ((startCursor v alloc).shift 4 []) := by
    rw [readHeader_whole (by simp) (by simp [hp]), startCursor_offset, le32_bytes32LE]
    rfl
  have hafter : Delivery.After (bytes32LE w) ⟨conn, bytes32LE w ++ rest, mtu⟩ ⟨conn, rest, mtu⟩ := ⟨rfl, rfl, rfl⟩
  rw [runDelivery, List.length_append, bytes32LE_length]
  exact deliverLoop_word hafter (by simp [hp]) hread _

/-- The last two bytes of a header whose low half is held (41_decode.md R113). -/
theorem runDelivery_split_header (hp : v.ds.phase = .headerSplit) (hlow : v.ds.lowHalf = w.extractLsb' 0 16)
    (rest : List Byte) (conn mtu : Nat) (alloc : List Bool) :
    runDelivery ⟨conn, (bytes32LE w).drop 2 ++ rest, mtu⟩ v alloc
      = ((wordStage ⟨conn, rest, mtu⟩ w (startCursor v alloc).leaveSplit).carryOn ⟨conn, rest, mtu⟩
          (2 + rest.length)).shift 2 [] := by
  have hread : readHeader ⟨conn, (bytes32LE w).drop 2 ++ rest, mtu⟩ (startCursor v alloc)
      = .word w ((startCursor v alloc).leaveSplit.shift 2 []) := by
    rw [readHeader_second_half (by simp) (by simp [hp]), startCursor_offset, startCursor_ds, hlow, le16_high_bytes32LE,
      splitHeader_halves]
    rfl
  have hafter : Delivery.After ((bytes32LE w).drop 2) ⟨conn, (bytes32LE w).drop 2 ++ rest, mtu⟩ ⟨conn, rest, mtu⟩ :=
    ⟨rfl, rfl, rfl⟩
  rw [runDelivery, List.length_append, List.length_drop, bytes32LE_length]
  exact deliverLoop_word hafter (by simp [hp]) hread _

/-- Two words of one length and validity, with the same bytes after them, are delivered alike. -/
theorem runDelivery_header_congr {buf buf' rest : List Byte} (hlen : headerLen w = headerLen w')
    (hvalid : headerValid w = headerValid w') (h : HeaderArrives v.ds buf w rest) (h' : HeaderArrives v.ds buf' w' rest)
    (conn mtu : Nat) (alloc : List Bool) :
    runDelivery ⟨conn, buf, mtu⟩ v alloc = runDelivery ⟨conn, buf', mtu⟩ v alloc := by
  rcases h with ⟨hp, rfl⟩ | ⟨hp, hlow, rfl⟩ <;> rcases h' with ⟨hp', rfl⟩ | ⟨hp', hlow', rfl⟩
  · rw [runDelivery_whole_header hp, runDelivery_whole_header hp, wordStage_congr hlen hvalid]
  · cases hp.symm.trans hp'
  · cases hp.symm.trans hp'
  · rw [runDelivery_split_header hp hlow, runDelivery_split_header hp hlow', wordStage_congr hlen hvalid]

/-- Of its buffer a DELIVER answers what the delivery makes of it, and nothing else. -/
theorem exec_deliver_congr {s : State} {buf buf' : List Byte} {mtu : Nat} {alloc : List Bool}
    (h : runDelivery ⟨s.conn, buf, mtu⟩ s.connection alloc = runDelivery ⟨s.conn, buf', mtu⟩ s.connection alloc) :
    exec (.deliver buf mtu alloc) s = exec (.deliver buf' mtu alloc) s := by
  rw [exec, exec, execDeliver, execDeliver, h]
end

/-! ### A whole unit -/

theorem headD_of_head?_ne {l : List Bool} (h : l.head? ≠ some false) : l.headD true = true := by
  cases l with
  | nil => rfl
  | cons x rest => simpa using h

theorem unitLength_even (len : Nat) : unitLength len % 2 = 0 := by
  rw [unitLength]
  omega

/-- A frame that is started with all of its payload in the buffer is completed at once (41_decode.md R120 to R124). -/
theorem payloadStage_startPayload {d : Delivery} {c : Cursor} {len : Len} (hL : c.offset + len.toNat ≤ d.buf.length) :
    payloadStage d (c.startPayload len) = loopBack d
      { c with
        ds := { c.ds with phase := .awaitingHeader, target := 0#11, received := 0#11, frame := none }
        offset := c.offset + len.toNat + len.toNat % 2
        trace := c.trace ++ [.frame ((d.buf.drop c.offset).take len.toNat)] } := by
  have hcount : copyCount d (c.startPayload len) = len.toNat := by
    simp only [copyCount, Cursor.startPayload_offset, Cursor.startPayload_ds, BitVec.toNat_zero]
    omega
  rw [payloadStage_complete (Nat.zero_le _) hL, copyPayload, hcount]
  rfl

/-- One pass over a unit whose payload is in the buffer: its frame is emitted, one allocation outcome is drawn, and the
cursor moves on by the unit's length (30_encoding.md R64; 41_decode.md R115 to R125). -/
theorem deliverPass_unit {d : Delivery} {c : Cursor} (hds : c.ds = .boundEmpty)
    (hvalid : headerValid (le32 d.buf c.offset) = true) (hsize : (headerLen (le32 d.buf c.offset)).toNat ≤ d.mtu + 18)
    (ha : c.alloc.headD true = true) (hL : c.offset + 4 + (headerLen (le32 d.buf c.offset)).toNat ≤ d.buf.length) :
    deliverPass d c = loopBack d
      { c with
        offset := c.offset + unitLength (headerLen (le32 d.buf c.offset)).toNat
        alloc := c.alloc.tail
        trace := c.trace
          ++ [.frame ((d.buf.drop (c.offset + 4)).take (headerLen (le32 d.buf c.offset)).toNat)] } := by
  have hphase : c.ds.phase = .awaitingHeader := by rw [hds]; rfl
  have hread := readHeader_whole (d := d) (c := c) (by omega) (by simp [hphase])
  have haccept := acceptHeader_accepted (d := d) (c := c.advance 4) hvalid hsize ha
  rw [deliverPass_header (by simp [hphase]), headerStage_accepted hread haccept, payloadStage_startPayload hL]
  simp only [Cursor.advance, hds, unitLength, Nat.add_assoc]
  rfl

theorem loopBack_again_or_exit (d : Delivery) (c : Cursor) : loopBack d c = .again c ∨ loopBack d c = .exit c := by
  rw [loopBack]
  split
  · exact .inr rfl
  · exact .inl rfl

end Sys2Proof.Machine
end

section
/-! SUPPORT. The contract of each command (30_encoding.md R71; 60_exceptions.md R169). -/

namespace Sys2Proof.Machine

section
variable {s : State} {buf frame hdr : List Byte} {mtu mps : Nat} {alloc : List Bool} {len : Half}

theorem withinContract_bind : withinContract s .bind = true ↔ s.connection.ds.bound = false := by
  simp [withinContract, Instr.wellFormed]

theorem withinContract_unbind : withinContract s .unbind = true ↔ s.connection.ds.bound = true := by
  simp [withinContract, Instr.wellFormed]

theorem withinContract_deliver :
    withinContract s (.deliver buf mtu alloc) = true ↔ mtu ≤ 65535 ∧ s.connection.ds.bound = true := by
  simp only [withinContract, Instr.wellFormed, Bool.and_eq_true, decide_eq_true_eq]
  rfl

theorem withinContract_encode :
    withinContract s (.encode frame mps) = true ↔ frame.length ≤ 2047 ∧ 1 ≤ mps ∧ mps ≤ 65535 := by
  simp only [withinContract, Instr.wellFormed, Bool.and_eq_true, decide_eq_true_eq, and_true, and_assoc]
  rfl

theorem withinContract_encodeHeader : withinContract s (.encodeHeader len) = true ↔ len.toNat ≤ 2047 := by
  simp only [withinContract, Instr.wellFormed, Bool.and_eq_true, decide_eq_true_eq, and_true]
  rfl

theorem withinContract_decodeHeader : withinContract s (.decodeHeader hdr) = true ↔ hdr.length = 4 := by
  simp [withinContract, Instr.wellFormed]
end

/-- Within the contract no fault's condition holds. -/
theorem faultCondition_within {s : State} {i : Instr} (h : withinContract s i = true) (r : Fault) :
    faultCondition s i r = false := by
  cases i with
  | bind => simp [faultCondition, withinContract_bind.mp h]
  | unbind => simp [faultCondition, withinContract_unbind.mp h]
  | deliver buf mtu alloc =>
    obtain ⟨hm, hb⟩ := withinContract_deliver.mp h
    simp [faultCondition, hb, hm]
  | encode frame mps =>
    obtain ⟨hn, h0, hm⟩ := withinContract_encode.mp h
    simp [faultCondition, hn, hm, Nat.one_le_iff_ne_zero.mp h0]
  | encodeHeader len => simp [faultCondition, withinContract_encodeHeader.mp h]
  | decodeHeader hdr => simp [faultCondition, withinContract_decodeHeader.mp h]

/-- Within the contract a command completes: it returns an output, and sets at most its own connection. -/
theorem exec_within {s : State} {i : Instr} (h : withinContract s i = true) :
    ∃ t o, exec i s = .next t ∧ t.outputs = s.outputs ++ [⟨s.conn, o⟩] ∧ t.faults = s.faults := by
  cases i with
  | bind => exact ⟨_, _, exec_bind_unbound (withinContract_bind.mp h), rfl, rfl⟩
  | unbind => exact ⟨_, _, exec_unbind_bound (withinContract_unbind.mp h), rfl, rfl⟩
  | deliver buf mtu alloc =>
    obtain ⟨hm, hb⟩ := withinContract_deliver.mp h
    exact ⟨_, _, exec_deliver hb hm buf alloc, rfl, rfl⟩
  | encode frame mps =>
    obtain ⟨hn, h0, hm⟩ := withinContract_encode.mp h
    exact ⟨_, _, exec_encode hn h0 hm, rfl, rfl⟩
  | encodeHeader len => exact ⟨_, _, exec_encodeHeader (withinContract_encodeHeader.mp h), rfl, rfl⟩
  | decodeHeader hdr => exact ⟨_, _, exec_decodeHeader (withinContract_decodeHeader.mp h), rfl, rfl⟩

/-- Outside the contract a command records a fault whose condition holds. -/
theorem exec_outside {s : State} {i : Instr} (h : ¬ withinContract s i = true) :
    ∃ r, faultCondition s i r = true ∧ exec i s = .next (s.recordFault r) := by
  cases i with
  | bind =>
    have hb : s.connection.ds.bound = true := by simpa [withinContract_bind] using h
    exact ⟨_, by simp [faultCondition, hb], exec_bind_bound hb⟩
  | unbind =>
    have hb : s.connection.ds.bound = false := by simpa [withinContract_unbind] using h
    exact ⟨_, by simp [faultCondition, hb], exec_unbind_unbound hb⟩
  | deliver buf mtu alloc =>
    rcases Nat.lt_or_ge 65535 mtu with hm | hm
    · exact ⟨_, by simp [faultCondition, hm], exec_deliver_wide hm buf alloc⟩
    · have hb : s.connection.ds.bound = false := by simpa [withinContract_deliver, hm] using h
      exact ⟨_, by simp [faultCondition, hb], exec_deliver_unbound hb hm buf alloc⟩
  | encode frame mps =>
    rcases Nat.lt_or_ge 65535 mps with hm | hm
    · exact ⟨_, by simp [faultCondition, hm], exec_encode_wide hm⟩
    · rcases Nat.lt_or_ge 2047 frame.length with hn | hn
      · exact ⟨_, by simp [faultCondition, hn], exec_encode_long hm hn⟩
      · obtain rfl : mps = 0 := by
          rw [withinContract_encode] at h
          omega
        exact ⟨_, by simp [faultCondition], exec_encode_zero hn⟩
  | encodeHeader len =>
    have hn : 2047 < len.toNat := by simpa [withinContract_encodeHeader] using h
    exact ⟨_, by simp [faultCondition, hn], exec_encodeHeader_long hn⟩
  | decodeHeader hdr =>
    have h4 : hdr.length ≠ 4 := by simpa [withinContract_decodeHeader] using h
    exact ⟨_, by simp [faultCondition, h4], exec_decodeHeader_malformed h4⟩

end Sys2Proof.Machine
end

section
/-! PROOFS. The statements of 30_encoding.md. -/

namespace Sys2Proof.Machine

/-- Settles O3: the first part is `decode_encodeCommand`, one lemma for each instruction; the word of a command is its two
fields, and these are the instruction's (`word_of_decode_instr`). -/
theorem decodeInvertsEncode : Obligations.DecodeInvertsEncode := by
  refine ⟨decode_encodeCommand, fun c i h => ⟨word_of_decode_instr h, ?_⟩⟩
  rw [decode_encodeCommand, h]

/-- Settles O2, by `decode_reserved_word` and `decode_command_word`. -/
theorem reservedWordsFault : Obligations.ReservedWordsFault := by
  intro s c rest hpending
  refine ⟨fun hword => ?_, decode_command_word⟩
  have hdecode := decode_reserved_word hword
  refine ⟨fun i hi => ?_, step_reserved hpending hdecode⟩
  cases hdecode.symm.trans hi

/-- Settles O11: the masks keep the low 11 bits, and the complement of a field is its exclusive or with all ones. -/
theorem headerTestComparesTheComplement : Obligations.HeaderTestComparesTheComplement := by
  intro w
  refine ⟨extractLsb'_toNat_eq_and w, extractLsb'_toNat_eq_and _, beq_iff_eq, ?_, fun v h => ?_⟩
  · rw [headerValid_iff, ← BitVec.xor_allOnes]
    rfl
  · obtain ⟨hlen, hvalid⟩ := header_congr h
    exact ⟨hvalid.symm, hlen.symm⟩

/-- Settles O12, by `validHeaderEquiv`: 11 bits of length and two times 5 ignored bits may be chosen. -/
theorem validHeaderWordsAreCounted : Obligations.ValidHeaderWordsAreCounted := by
  refine ⟨?_, fun n _ => headerValid_headerWord n⟩
  calc Nat.card { w : Word // headerValid w = true } = Nat.card (Len × BitVec 5 × BitVec 5) :=
        Nat.card_congr validHeaderEquiv
    _ = 2 ^ 11 * (2 ^ 5 * 2 ^ 5) := by rw [Nat.card_prod, Nat.card_prod, natCard_bitVec, natCard_bitVec]
    _ = 2 ^ 21 := by decide

/-- Settles O17: the word is the encoder's header word, whose value is `headerWord_toNat`. -/
theorem encodeReturnsTheTransmitBuffer : Obligations.EncodeReturnsTheTransmitBuffer := by
  intro s frame mps hn h0 hm
  refine ⟨headerWord (BitVec.ofNat 16 frame.length), ?_, ?_⟩
  · rw [headerWord_toNat, BitVec.toNat_ofNat, Nat.mod_eq_of_lt (by omega)]
  · have sentinel : bytes32LE Config.padSentinel = [0x00#8, 0x00#8, 0xFF#8, 0xFF#8] := by decide
    rw [exec_encode hn h0 hm, transmitBuffer, sentinel]
    simp only [needsPad, decide_eq_true_eq]
    rfl

/-- Settles O44: the two words have one length and validity (`header_congr`), and the delivery sees nothing else of them. -/
theorem ignoredHeaderBitsChangeNothing : Obligations.IgnoredHeaderBitsChangeNothing := by
  intro s w w' buf buf' rest mtu alloc hw h h'
  obtain ⟨hlen, hvalid⟩ := header_congr hw
  exact exec_deliver_congr (runDelivery_header_congr hlen hvalid h h' s.conn mtu alloc)

/-- Settles O57, by `deliverPass_unit`: what follows the payload decides only whether the loop goes on. -/
theorem unitLengthIsReadFromItsHeader : Obligations.UnitLengthIsReadFromItsHeader := by
  rintro d c _ hds hvalid rfl hsize ha hL
  rw [deliverPass_unit hds hvalid hsize (headD_of_head?_ne ha) hL]
  exact ⟨_, loopBack_again_or_exit d _, rfl, rfl, unitLength_even _, hds, rfl⟩

/-- Settles O1: each word is written out, so the decoder computes on it whatever stands beside it. -/
theorem commandWordsDecodeToTheirCommands : Obligations.CommandWordsDecodeToTheirCommands := by
  intro conn ops
  simp [decode, reservedField, opcField]

/-- Settles O22: of these operands the width is checked first, or is all there is to check. -/
theorem operandsOutOfRangeFault : Obligations.OperandsOutOfRangeFault :=
  fun _ => ⟨fun buf _ alloc _ hm => exec_deliver_wide hm buf alloc, fun _ _ _ hm => exec_encode_wide hm,
    fun _ h4 => exec_decodeHeader_malformed h4⟩

/-- Settles O23, by `faultCondition_within`, `exec_within` and `exec_outside`. -/
theorem faultsExactlyOutsideTheContract : Obligations.FaultsExactlyOutsideTheContract :=
  fun _ _ => ⟨fun h => ⟨faultCondition_within h, exec_within h⟩, fun h => exec_outside (by simp [h])⟩

end Sys2Proof.Machine
end

section
/-! SUPPORT. What the header codec needs: the value of a word read from its bytes, the length and the complement of a word
given as two halves, and what the header test makes of a word with some of its bits flipped. -/

namespace Sys2Proof.Machine

/-! ### The value of a word (00_scope.md R10) -/

theorem append_toNat {m n : Nat} (x : BitVec m) (y : BitVec n) : (x ++ y).toNat = x.toNat * 2 ^ n + y.toNat := by
  rw [BitVec.toNat_append, ← Nat.shiftLeft_add_eq_or_of_lt y.isLt, Nat.shiftLeft_eq]

/-- A 16-bit read is its two bytes, the second above the first. -/
theorem le16_eq_append (buf : List Byte) (i : Nat) : le16 buf i = byteAt buf (i + 1) ++ byteAt buf i := by
  rw [le16, BitVec.or_comm, ← BitVec.setWidth_append_eq_shiftLeft_setWidth_or, BitVec.setWidth_eq]

theorem splitHeader_eq_append (low high : Half) : splitHeader low high = high ++ low := by
  rw [splitHeader, BitVec.or_comm, ← BitVec.setWidth_append_eq_shiftLeft_setWidth_or, BitVec.setWidth_eq]

theorem le32_toNat (buf : List Byte) (i : Nat) :
    (le32 buf i).toNat = (byteAt buf i).toNat + 256 * (byteAt buf (i + 1)).toNat
      + 65536 * (byteAt buf (i + 2)).toNat + 16777216 * (byteAt buf (i + 3)).toNat := by
  rw [← splitHeaderIsTheSameWord, splitHeader_eq_append]
  simp only [le16_eq_append, append_toNat, Nat.add_assoc i 2 1]
  omega

/-! ### The two fields of a word (30_encoding.md R62) -/

theorem headerLen_toNat (w : Word) : (headerLen w).toNat = w.toNat % 2048 := by
  simp [headerLen]

theorem headerCheck_toNat (w : Word) : (headerCheck w).toNat = (4294967295 - w.toNat) / 65536 % 2048 := by
  simp [headerCheck, Nat.shiftRight_eq_div_pow]

theorem headerValid_eq_decide (w : Word) : headerValid w = decide ((headerLen w).toNat = (headerCheck w).toNat) := by
  rw [Bool.eq_iff_iff, headerValid, beq_iff_eq, decide_eq_true_iff, BitVec.toNat_inj]

theorem headerLen_splitHeader (low high : Half) : headerLen (splitHeader low high) = low.setWidth 11 := by
  rw [splitHeader_eq_append, headerLen, BitVec.extractLsb'_append_eq_of_add_le (by decide),
    BitVec.setWidth_eq_extractLsb' (by decide)]

theorem headerNcheck_splitHeader (low high : Half) : headerNcheck (splitHeader low high) = high.setWidth 11 := by
  rw [splitHeader_eq_append, headerNcheck, BitVec.extractLsb'_append_eq_of_le (by decide),
    BitVec.setWidth_eq_extractLsb' (by decide)]

/-- Of the high half the header test reads the low 11 bits (30_encoding.md R74). -/
theorem headerValid_splitHeader {low high : Half} (h : high.setWidth 11 = ~~~(low.setWidth 11 : Len)) :
    headerValid (splitHeader low high) = true := by
  rw [headerValid_iff, headerNcheck_splitHeader, headerLen_splitHeader, h]

theorem or_and_distrib_left {n : Nat} (x y z : BitVec n) : x ||| (y &&& z) = (x ||| y) &&& (x ||| z) :=
  BitVec.eq_of_getElem_eq (by simp [Bool.or_and_distrib_left])

/-- Above bit 10 the complement of a length that fits 11 bits is all ones (30_encoding.md R60). -/
theorem not_eq_or_of_fitsLength {len : Half} (h : len.toNat ≤ 2047) : ~~~len = 0xF800#16 ||| (~~~len &&& 0x7ff#16) := by
  have hmask : len &&& 0x7ff#16 = len :=
    BitVec.eq_of_toNat_eq (by
      rw [BitVec.toNat_and]
      exact Nat.and_two_pow_sub_one_of_lt_two_pow (n := 11) (by omega))
  have hor : 0xF800#16 ||| 0x7ff#16 = BitVec.allOnes 16 := by decide
  calc ~~~len = ~~~(len &&& 0x7ff#16) := by rw [hmask]
    _ = 0xF800#16 ||| ~~~len := by
      rw [BitVec.not_and, BitVec.or_comm]
      rfl
    _ = 0xF800#16 ||| (~~~len &&& 0x7ff#16) := by
      rw [or_and_distrib_left, hor, BitVec.and_allOnes]

/-! ### Flipped bits (40_header_codec.md R103) -/

theorem headerLen_xor (w v : Word) : headerLen (w ^^^ v) = headerLen w ^^^ headerLen v :=
  BitVec.extractLsb'_xor

theorem headerNcheck_xor (w v : Word) : headerNcheck (w ^^^ v) = headerNcheck w ^^^ headerNcheck v :=
  BitVec.extractLsb'_xor

/-- A valid header stays valid exactly when its length and its complement field are flipped in the same places. -/
theorem headerValid_xor {w : Word} (h : headerValid w = true) (v : Word) :
    headerValid (w ^^^ v) = true ↔ headerNcheck v = headerLen v := by
  rw [headerValid_iff, headerNcheck_xor, headerLen_xor, (headerValid_iff w).mp h, ← BitVec.not_xor_left,
    BitVec.not_inj, BitVec.xor_right_inj]

/-- A bit that the header test compares stands in one of the two fields, and there only. -/
theorem headerFields_compared_bit :
    ∀ k < 32, (k ≤ 10 ∨ (16 ≤ k ∧ k ≤ 26)) → headerNcheck (1#32 <<< k) ≠ headerLen (1#32 <<< k) := by
  decide

/-- A bit that the header test ignores stands in neither field (30_encoding.md R74). -/
theorem headerFields_ignored_bit :
    ∀ k < 32, ((11 ≤ k ∧ k ≤ 15) ∨ (27 ≤ k ∧ k ≤ 31)) →
      headerNcheck (1#32 <<< k) = 0#11 ∧ headerLen (1#32 <<< k) = 0#11 := by
  decide

/-! ### DECODE_HEADER (40_header_codec.md R101) -/

/-- DECODE_HEADER of the bytes of a word answers the word's length and validity. -/
theorem exec_decodeHeader_bytes32LE (w : Word) (s : State) :
    exec (.decodeHeader (bytes32LE w)) s = .next (s.emit (.decoded (headerLen w) (headerValid w))) := by
  have hread : le32 (bytes32LE w) 0 = w := le32_bytes32LE w []
  rw [exec_decodeHeader (bytes32LE_length w), hread]

/-- Two outputs recorded in one state give one next state only if they are the same output. -/
theorem next_emit_inj {s : State} {o o' : Output} :
    (.next (s.emit o) : Host.Outcome State Fault Refusal) = .next (s.emit o') ↔ o = o' := by
  simp [State.emit]

end Sys2Proof.Machine
end

section
/-! PROOFS. The statements of 40_header_codec.md. -/

namespace Sys2Proof.Machine

/-- Settles O9: the word is the encoder's, the length below its complement (`headerWord_eq_append`). -/
theorem encodeHeaderReturnsLengthAndComplement : Obligations.EncodeHeaderReturnsLengthAndComplement := by
  intro s len
  refine ⟨fun conn ops => ?_, exec_encodeHeader_long, fun h => ?_⟩
  · obtain ⟨-, -, -, -, hdecode, -⟩ := commandWordsDecodeToTheirCommands conn { ops with len := len }
    exact hdecode
  · refine ⟨headerWord len, headerWord_toNat len, ?_, exec_encodeHeader h⟩
    rw [headerWord_eq_append, BitVec.extractLsb'_append_eq_left]
    exact not_eq_or_of_fitsLength h

/-- Settles O10: the word read has the value of its four bytes (`le32_toNat`), and its two fields are taken from that value
(`headerLen_toNat`, `headerCheck_toNat`). -/
theorem decodeHeaderReturnsLengthAndValid : Obligations.DecodeHeaderReturnsLengthAndValid := by
  intro s
  refine ⟨fun conn ops => ?_, fun hdr => exec_decodeHeader_malformed, ?_⟩
  · obtain ⟨-, -, -, -, -, hdecode⟩ := commandWordsDecodeToTheirCommands conn ops
    exact hdecode
  · rintro b0 b1 b2 b3 w _ _ hw rfl rfl
    obtain rfl : (le32 [b0, b1, b2, b3] 0).toNat = w := (le32_toNat _ 0).trans hw.symm
    rw [exec_decodeHeader rfl, headerValid_eq_decide, ← headerCheck_toNat, ← headerLen_toNat, BitVec.ofNat_toNat,
      BitVec.setWidth_eq]

/-- Settles O13: the encoder's word has the length it was made from and is valid. -/
theorem headerRoundTrip : Obligations.HeaderRoundTrip := by
  intro s s' n hn
  refine ⟨_, exec_encodeHeader hn, ?_⟩
  rw [exec_decodeHeader_bytes32LE, headerValid_headerWord, headerLen_headerWord,
    BitVec.setWidth_eq_extractLsb' (by decide)]

/-- Settles O14, by `headerValid_xor`: a compared bit stands in one of the two fields only, an ignored bit in neither. -/
theorem oneBitFlipsOfAValidHeader : Obligations.OneBitFlipsOfAValidHeader := by
  intro s w len k h
  rw [exec_decodeHeader_bytes32LE, next_emit_inj, Output.decoded.injEq] at h
  obtain ⟨rfl, hvalid⟩ := h
  have hflip := headerValid_xor hvalid (1#32 <<< k)
  rw [exec_decodeHeader_bytes32LE]
  refine ⟨fun hk => ⟨headerLen (w ^^^ 1#32 <<< k), ?_⟩, fun hk => ?_⟩
  · have hne := headerFields_compared_bit k (by omega) hk
    rw [Bool.eq_false_iff.mpr (mt hflip.mp hne)]
  · obtain ⟨hncheck, hlen⟩ := headerFields_ignored_bit k (by omega) hk
    rw [hflip.mpr (hncheck.trans hlen.symm), headerLen_xor, hlen, BitVec.xor_zero]

/-- Settles O15, by `headerValid_splitHeader`: both high halves have the complement of `n` in their low 11 bits. -/
theorem maskedComplementIsAccepted : Obligations.MaskedComplementIsAccepted := by
  intro s n _
  have accepted {high : Half} (h : high.setWidth 11 = ~~~(n.setWidth 11 : Len)) :
      exec (.decodeHeader (bytes32LE (splitHeader n high))) s = .next (s.emit (.decoded (n.setWidth 11) true)) := by
    rw [exec_decodeHeader_bytes32LE, headerLen_splitHeader, headerValid_splitHeader h]
  have hfull : (~~~n).setWidth 11 = ~~~(n.setWidth 11 : Len) := BitVec.setWidth_not (by decide)
  have hmasked : (~~~n &&& 0x7ff#16).setWidth 11 = ~~~(n.setWidth 11 : Len) := by
    rw [BitVec.setWidth_and, hfull]
    exact BitVec.and_allOnes
  exact ⟨accepted hmasked, accepted hfull⟩

end Sys2Proof.Machine
end

section
/-! SUPPORT. A DELIVER as a function of its bytes, from a connection to the connection and the events it leaves: one
equation for each way a buffer can open, in each phase. -/

namespace Sys2Proof.Machine

/-- What a DELIVER leaves of its connection, and the events it returns. -/
structure Delivered where
  connection : Connection
  events : List Event

/-- The same, with the events `es` before its own. -/
def Delivered.before (es : List Event) (r : Delivered) : Delivered := { r with events := es ++ r.events }

/-- The end of a DELIVER by an error of kind `k`: the `draws`-th context is drawn and the decode state is empty. -/
def Delivered.failed (conn draws : Nat) (k : ErrorKind) : Delivered :=
  ⟨⟨.boundEmpty, draws + 1⟩, [.error k (Config.errorContext conn draws)]⟩

/-- What the end of the loop means for the connection and the host: the cursor's offset and outcomes left are dropped. -/
def Cursor.delivered (c : Cursor) : Delivered := ⟨⟨c.ds, c.draws⟩, c.trace⟩

/-- The state after a DELIVER that gives `r`. -/
def State.answer (s : State) (r : Delivered) : State := (s.setConnection r.connection).emit (.trace r.events)

/-- DELIVER of `buf` on the connection `v` numbered `conn`. -/
def deliver (conn mtu : Nat) (v : Connection) (alloc : List Bool) (buf : List Byte) : Delivered :=
  (runDelivery ⟨conn, buf, mtu⟩ v alloc).delivered

/-- A half-header is held. -/
def DecodeState.holding (low : Half) : DecodeState :=
  { bound := true, phase := .headerSplit, lowHalf := low, target := 0#11, received := 0#11, frame := none }

/-- A frame of `target` bytes is in progress, and `f` is what it holds. -/
def DecodeState.assembling (target : Len) (f : List Byte) : DecodeState :=
  { bound := true, phase := .awaitingPayload, lowHalf := 0#16, target := target,
    received := BitVec.ofNat 11 f.length, frame := some f }

@[simp] theorem DecodeState.boundEmpty_phase : DecodeState.boundEmpty.phase = .awaitingHeader := rfl

@[simp] theorem Delivered.before_connection (es : List Event) (r : Delivered) :
    (r.before es).connection = r.connection := rfl
@[simp] theorem Delivered.before_events (es : List Event) (r : Delivered) : (r.before es).events = es ++ r.events := rfl
@[simp] theorem Delivered.before_nil (r : Delivered) : r.before [] = r := rfl
@[simp] theorem Delivered.before_before (es fs : List Event) (r : Delivered) :
    (r.before fs).before es = r.before (es ++ fs) := by simp [Delivered.before]
@[simp] theorem Cursor.shift_delivered (k : Nat) (tr : List Event) (c : Cursor) :
    (c.shift k tr).delivered = c.delivered.before tr := rfl

theorem Cursor.raise_delivered {c : Cursor} (hb : c.ds.bound = true) (d : Delivery) (k : ErrorKind) :
    (c.raise d k).delivered = (Delivered.failed d.conn c.draws k).before c.trace := by
  simp [Cursor.delivered, Delivered.before, Delivered.failed, DecodeState.resetDs_bound_eq hb]

/-! ### The loop -/

section
variable {d d' : Delivery}

/-- Where a header is expected a pass moves the cursor on by two, so one pass for each byte that remains is enough. -/
theorem deliverLoop_fuel_header {c : Cursor} (h : c.Ready d) (hp : c.ds.phase ≠ .awaitingPayload) {n m : Nat}
    (hn : d.buf.length - c.offset ≤ n + 1) (hm : n + 1 ≤ m) : deliverLoop d m c = deliverLoop d (n + 1) c := by
  obtain ⟨m, rfl⟩ : ∃ k, m = k + 1 := ⟨m - 1, by omega⟩
  have hadv := deliverPass_advances h
  rw [deliverLoop_succ, deliverLoop_succ]
  cases hpass : deliverPass d c with
  | again c' =>
    rw [hpass] at hadv
    obtain ⟨hi, hb, -, hlt⟩ := hadv
    have hmove := deliverPass_again_offset hp hpass
    exact deliverLoop_fuel ⟨hi, hb, hlt.le⟩ (by omega) (by omega)
  | exit c' => rfl
  | abort c' => rfl

/-- A DELIVER of nothing ends at once where a header is expected (41_decode.md R112). -/
theorem runDelivery_nil {v : Connection} (hp : v.ds.phase ≠ .awaitingPayload) (conn mtu : Nat) (alloc : List Bool) :
    runDelivery ⟨conn, [], mtu⟩ v alloc = startCursor v alloc := by
  have hread : readHeader ⟨conn, [], mtu⟩ (startCursor v alloc) = .exit (startCursor v alloc) :=
    readHeader_short (by simp)
  rw [runDelivery, deliverLoop_succ, deliverPass_header hp, headerStage_exit hread]
  exact postCheck_ok rfl

/-- A loop that has come to the end of the bytes `pre` with nothing in progress goes on as a DELIVER of what follows
them. -/
theorem loopBack_carryOn {pre : List Byte} (h : d.After pre d') (tr : List Event) (draws : Nat) (alloc : List Bool)
    {n : Nat} (hn : d'.buf.length ≤ n) :
    (loopBack d ((startCursor ⟨.boundEmpty, draws⟩ alloc).shift pre.length tr)).carryOn d n
      = (runDelivery d' ⟨.boundEmpty, draws⟩ alloc).shift pre.length tr := by
  have hlen : d.buf.length = pre.length + d'.buf.length := by rw [h.buf, List.length_append]
  have hp : DecodeState.boundEmpty.phase ≠ .awaitingPayload := by simp
  obtain ⟨conn, rest, mtu⟩ := d'
  cases rest with
  | nil =>
    rw [runDelivery_nil hp, loopBack, if_pos (by simp [hlen])]
    exact postCheck_ok (by simp [hlen])
  | cons b rest =>
    rw [loopBack, if_neg (by simp [hlen])]
    obtain ⟨n, rfl⟩ : ∃ k, n = k + 1 := ⟨n - 1, by simp at hn; omega⟩
    have hready := startCursor_ready (v := ⟨.boundEmpty, draws⟩) DecodeState.boundEmpty_inv rfl ⟨conn, b :: rest, mtu⟩ alloc
    have hfuel := fun m => deliverLoop_fuel_header hready hp (n := rest.length) (m := m) (by simp)
    rw [Flow.carryOn, deliverLoop_shift h, hfuel _ hn, runDelivery, List.length_cons, hfuel _ (Nat.le_succ _)]

end

section
variable {conn mtu draws : Nat} {alloc : List Bool} {v : Connection}

/-! ### Payload -/

theorem assembling_received {target : Len} {f : List Byte} (h : f.length ≤ target.toNat) :
    (DecodeState.assembling target f).received.toNat = f.length := by
  have := target.isLt
  rw [DecodeState.assembling, BitVec.toNat_ofNat, Nat.mod_eq_of_lt (by omega)]

/-- A bound decode state with a frame in progress is its target and the bytes it holds. -/
theorem DecodeState.Inv.eq_assembling {ds : DecodeState} (h : ds.Inv) (hb : ds.bound = true)
    (hp : ds.phase = .awaitingPayload) : ∃ target f, f.length < target.toNat ∧ ds = .assembling target f := by
  obtain ⟨-, -, -, hpayload⟩ := h
  obtain ⟨hlow, hlt, hlen⟩ := hpayload hp
  obtain ⟨f, hf, hn⟩ := Option.map_eq_some_iff.mp hlen
  have hr : ds.received = BitVec.ofNat 11 f.length := by rw [hn, BitVec.ofNat_toNat, BitVec.setWidth_eq]
  exact ⟨ds.target, f, hn ▸ hlt, by rw [DecodeState.assembling, ← hr, ← hf, ← hlow, ← hb, ← hp]⟩

/-- A bound decode state with a half-header held is the half it holds. -/
theorem DecodeState.Inv.eq_holding {ds : DecodeState} (h : ds.Inv) (hb : ds.bound = true) (hp : ds.phase = .headerSplit) :
    ds = .holding ds.lowHalf := by
  obtain ⟨-, -, hsplit, -⟩ := h
  obtain ⟨ht, hr, hf⟩ := hsplit hp
  cases ds
  simp_all [DecodeState.holding]

theorem runDelivery_payload (hp : v.ds.phase = .awaitingPayload) (buf : List Byte) :
    runDelivery ⟨conn, buf, mtu⟩ v alloc
      = (payloadStage ⟨conn, buf, mtu⟩ (startCursor v alloc)).carryOn ⟨conn, buf, mtu⟩ buf.length := by
  rw [runDelivery, deliverLoop_succ, deliverPass_payload hp]

theorem payloadStage_assembling_short {target : Len} {f buf : List Byte} (h : f.length + buf.length < target.toNat) :
    payloadStage ⟨conn, buf, mtu⟩ (startCursor ⟨.assembling target f, draws⟩ alloc)
      = .exit ((startCursor ⟨.assembling target (f ++ buf), draws⟩ alloc).shift buf.length []) := by
  have hr := assembling_received (target := target) (f := f) (by omega)
  have htarget : (DecodeState.assembling target f).target = target := rfl
  have hcount : copyCount ⟨conn, buf, mtu⟩ (startCursor ⟨.assembling target f, draws⟩ alloc) = buf.length := by
    simp only [copyCount, startCursor_offset, startCursor_ds, hr, htarget]
    omega
  rw [payloadStage_incomplete (by simp [hr, htarget]; omega) (by simp [hr, htarget]; omega) (by simp), copyPayload, hcount]
  simp only [startCursor_ds, hr]
  simp [Cursor.shift, startCursor, DecodeState.assembling]

theorem payloadStage_assembling_complete {target : Len} {f p : List Byte} (h : f.length + p.length = target.toNat)
    (q : List Byte) :
    payloadStage ⟨conn, p ++ q, mtu⟩ (startCursor ⟨.assembling target f, draws⟩ alloc)
      = loopBack ⟨conn, p ++ q, mtu⟩
          ((startCursor ⟨.boundEmpty, draws⟩ alloc).shift (p.length + target.toNat % 2) [.frame (f ++ p)]) := by
  have hr := assembling_received (target := target) (f := f) (by omega)
  have htarget : (DecodeState.assembling target f).target = target := rfl
  have hcount : copyCount ⟨conn, p ++ q, mtu⟩ (startCursor ⟨.assembling target f, draws⟩ alloc) = p.length := by
    simp only [copyCount, startCursor_offset, startCursor_ds, hr, htarget, List.length_append]
    omega
  rw [payloadStage_complete (by simp [hr, htarget]; omega) (by simp [hr, htarget]; omega), copyPayload, hcount]
  simp [Cursor.shift, Cursor.finish, Cursor.advance, Cursor.emitFrame, startCursor, DecodeState.assembling,
    DecodeState.boundEmpty, DecodeState.unbound]

/-- The buffer ends before the frame does (41_decode.md R122). -/
theorem deliver_payload_short {target : Len} {f buf : List Byte} (h : f.length + buf.length < target.toNat) :
    deliver conn mtu ⟨.assembling target f, draws⟩ alloc buf = ⟨⟨.assembling target (f ++ buf), draws⟩, []⟩ := by
  have hend : postCheck ⟨conn, buf, mtu⟩ ((startCursor ⟨.assembling target (f ++ buf), draws⟩ alloc).shift buf.length [])
      = (startCursor ⟨.assembling target (f ++ buf), draws⟩ alloc).shift buf.length [] := postCheck_ok rfl
  rw [deliver, runDelivery_payload rfl, payloadStage_assembling_short h, Flow.carryOn, hend]
  rfl

theorem carryOn_assembling_complete {target : Len} {f p tail : List Byte} (h : f.length + p.length = target.toNat)
    (htail : tail.length = target.toNat % 2) (rest : List Byte) {n : Nat} (hn : rest.length ≤ n) :
    ((payloadStage ⟨conn, p ++ tail ++ rest, mtu⟩ (startCursor ⟨.assembling target f, draws⟩ alloc)).carryOn
        ⟨conn, p ++ tail ++ rest, mtu⟩ n).delivered
      = (deliver conn mtu ⟨.boundEmpty, draws⟩ alloc rest).before [.frame (f ++ p)] := by
  have hafter : Delivery.After (p ++ tail) ⟨conn, p ++ tail ++ rest, mtu⟩ ⟨conn, rest, mtu⟩ := ⟨rfl, rfl, rfl⟩
  have hpass := payloadStage_assembling_complete (conn := conn) (mtu := mtu) (draws := draws) (alloc := alloc) h
    (tail ++ rest)
  rw [← List.append_assoc, ← htail, ← List.length_append] at hpass
  rw [hpass, loopBack_carryOn hafter _ _ _ hn]
  rfl

theorem carryOn_assembling_pad_missing {target : Len} {f p : List Byte} (h : f.length + p.length = target.toNat)
    (hodd : target.toNat % 2 = 1) (n : Nat) :
    ((payloadStage ⟨conn, p, mtu⟩ (startCursor ⟨.assembling target f, draws⟩ alloc)).carryOn ⟨conn, p, mtu⟩ n).delivered
      = (Delivered.failed conn draws .internalAccountingMismatch).before [.frame (f ++ p)] := by
  have hpass := payloadStage_assembling_complete (conn := conn) (mtu := mtu) (draws := draws) (alloc := alloc) h []
  rw [List.append_nil, hodd, loopBack, if_pos (by simp)] at hpass
  rw [hpass, Flow.carryOn, postCheck_mismatch (by simp), Cursor.raise_delivered rfl]
  rfl

/-- The frame is completed, and what follows it and its pad byte is decoded as from the empty state (41_decode.md R123 to
R125). -/
theorem deliver_payload_complete {target : Len} {f p tail : List Byte} (h : f.length + p.length = target.toNat)
    (htail : tail.length = target.toNat % 2) (rest : List Byte) :
    deliver conn mtu ⟨.assembling target f, draws⟩ alloc (p ++ tail ++ rest)
      = (deliver conn mtu ⟨.boundEmpty, draws⟩ alloc rest).before [.frame (f ++ p)] := by
  rw [deliver, runDelivery_payload rfl]
  exact carryOn_assembling_complete h htail rest (by simp; omega)

/-- The pad byte of a completed odd frame is missing (41_decode.md R124, R126). -/
theorem deliver_payload_pad_missing {target : Len} {f p : List Byte} (h : f.length + p.length = target.toNat)
    (hodd : target.toNat % 2 = 1) :
    deliver conn mtu ⟨.assembling target f, draws⟩ alloc p
      = (Delivered.failed conn draws .internalAccountingMismatch).before [.frame (f ++ p)] := by
  rw [deliver, runDelivery_payload rfl]
  exact carryOn_assembling_pad_missing h hodd _

/-- What a buffer holds for a frame in progress: too little, its last bytes without the pad byte, or all it needs. -/
theorem payload_cases {target : Len} {f : List Byte} (hf : f.length ≤ target.toNat) (buf : List Byte) :
    f.length + buf.length < target.toNat
      ∨ (f.length + buf.length = target.toNat ∧ target.toNat % 2 = 1)
      ∨ ∃ p tail rest, buf = p ++ tail ++ rest ∧ f.length + p.length = target.toNat
          ∧ tail.length = target.toNat % 2 := by
  by_cases hall : target.toNat - f.length + target.toNat % 2 ≤ buf.length
  · refine .inr (.inr ⟨buf.take (target.toNat - f.length), (buf.drop (target.toNat - f.length)).take (target.toNat % 2),
      (buf.drop (target.toNat - f.length)).drop (target.toNat % 2), ?_, ?_, ?_⟩)
    · rw [List.append_assoc, List.take_append_drop, List.take_append_drop]
    · rw [List.length_take]; omega
    · rw [List.length_take, List.length_drop]; omega
  · omega

/-! ### Headers -/

/-- What the loop makes of a header word, whichever way it arrived: the checks and the payload are those of a DELIVER of
the bytes after it, from a state with the same binding that the header has left. -/
theorem runDelivery_header {buf rest : List Byte} {w : Word} (h : HeaderArrives v.ds buf w rest) (conn mtu : Nat)
    (alloc : List Bool) :
    ∃ (k n : Nat) (ds : DecodeState), rest.length ≤ n ∧ ds.bound = v.ds.bound
      ∧ (v.ds.Inv → v.ds.bound = true → ds = .boundEmpty)
      ∧ runDelivery ⟨conn, buf, mtu⟩ v alloc
        = ((wordStage ⟨conn, rest, mtu⟩ w (startCursor ⟨ds, v.draws⟩ alloc)).carryOn ⟨conn, rest, mtu⟩ n).shift k [] := by
  rcases h with ⟨hp, rfl⟩ | ⟨hp, hlow, rfl⟩
  · exact ⟨4, 4 + rest.length, v.ds, by omega, rfl, fun hi hb => hi.eq_boundEmpty hb hp,
      runDelivery_whole_header hp w rest conn mtu alloc⟩
  · refine ⟨2, 2 + rest.length, { v.ds with phase := .awaitingHeader, lowHalf := 0#16 }, by omega, rfl, fun hi hb => ?_,
      runDelivery_split_header hp hlow rest conn mtu alloc⟩
    obtain ⟨-, -, hsplit, -⟩ := hi
    obtain ⟨ht, hr, hf⟩ := hsplit hp
    simp [ht, hr, hf, hb, DecodeState.boundEmpty, DecodeState.unbound]

theorem deliver_header_refused {buf rest : List Byte} {w : Word} (h : HeaderArrives v.ds buf w rest)
    (hb : v.ds.bound = true) {k : ErrorKind}
    (hword : ∀ ds, ∃ l, acceptHeader ⟨conn, rest, mtu⟩ w (startCursor ⟨ds, v.draws⟩ alloc)
      = .abort ((startCursor ⟨ds, v.draws⟩ l).raise ⟨conn, rest, mtu⟩ k)) :
    deliver conn mtu v alloc buf = .failed conn v.draws k := by
  obtain ⟨j, n, ds, -, hbound, -, hrun⟩ := runDelivery_header h conn mtu alloc
  obtain ⟨l, haccept⟩ := hword ds
  rw [deliver, hrun, wordStage, haccept, Cursor.shift_delivered, Flow.carryOn, Cursor.raise_delivered (hbound.trans hb)]
  rfl

/-- 41_decode.md R117. -/
theorem deliver_header_invalid {buf rest : List Byte} {w : Word} (h : HeaderArrives v.ds buf w rest)
    (hb : v.ds.bound = true) (hvalid : headerValid w = false) :
    deliver conn mtu v alloc buf = .failed conn v.draws .badHeaderChecksum :=
  deliver_header_refused h hb fun _ => ⟨alloc, acceptHeader_invalid hvalid⟩

/-- 41_decode.md R118. -/
theorem deliver_header_oversized {buf rest : List Byte} {w : Word} (h : HeaderArrives v.ds buf w rest)
    (hb : v.ds.bound = true) (hvalid : headerValid w = true) (hsize : mtu + 18 < (headerLen w).toNat) :
    deliver conn mtu v alloc buf = .failed conn v.draws .oversizedFrame :=
  deliver_header_refused h hb fun _ => ⟨alloc, acceptHeader_oversized hvalid hsize⟩

/-- 41_decode.md R119, a false draw. -/
theorem deliver_header_unallocated {buf rest : List Byte} {w : Word} (h : HeaderArrives v.ds buf w rest)
    (hb : v.ds.bound = true) (hvalid : headerValid w = true) (hsize : (headerLen w).toNat ≤ mtu + 18)
    (ha : alloc.headD true = false) : deliver conn mtu v alloc buf = .failed conn v.draws .allocationFailure :=
  deliver_header_refused h hb fun _ => ⟨alloc.tail, acceptHeader_unallocated hvalid hsize ha⟩

/-- An accepted header: what follows it is delivered to a frame of its length that holds nothing yet (41_decode.md
R120). -/
theorem deliver_header_accepted {buf rest : List Byte} {w : Word} (h : HeaderArrives v.ds buf w rest) (hi : v.ds.Inv)
    (hb : v.ds.bound = true) (hvalid : headerValid w = true) (hsize : (headerLen w).toNat ≤ mtu + 18)
    (ha : alloc.headD true = true) :
    deliver conn mtu v alloc buf
      = deliver conn mtu ⟨.assembling (headerLen w) [], v.draws⟩ alloc.tail rest := by
  obtain ⟨j, n, ds, hn, -, hempty, hrun⟩ := runDelivery_header h conn mtu alloc
  obtain rfl := hempty hi hb
  have hword : wordStage ⟨conn, rest, mtu⟩ w (startCursor ⟨.boundEmpty, v.draws⟩ alloc)
      = payloadStage ⟨conn, rest, mtu⟩ (startCursor ⟨.assembling (headerLen w) [], v.draws⟩ alloc.tail) := by
    rw [wordStage, acceptHeader_accepted hvalid hsize ha]
    rfl
  rw [deliver, hrun, hword, Cursor.shift_delivered, Delivered.before_nil]
  rcases payload_cases (f := []) (Nat.zero_le (headerLen w).toNat) rest with
    hshort | ⟨hwhole, hodd⟩ | ⟨p, tail, rest', rfl, hwhole, htail⟩
  · rw [deliver, runDelivery_payload rfl, payloadStage_assembling_short hshort]
    rfl
  · rw [carryOn_assembling_pad_missing hwhole hodd, deliver_payload_pad_missing hwhole hodd]
  · rw [carryOn_assembling_complete hwhole htail _ (by simp at hn; omega), deliver_payload_complete hwhole htail]

end

end Sys2Proof.Machine
end

section
/-! SUPPORT. A DELIVER of a few bytes where a header is expected, of whole units, and with every allocation succeeding;
and the DELIVER command in terms of `deliver`. -/

namespace Sys2Proof.Machine

section
variable {conn mtu draws : Nat} {alloc : List Bool} {v : Connection}

/-! ### Every buffer -/

/-- How a DELIVER ends: without an error, still bound, its events frames only; or with one error event last, bound and
empty (41_decode.md R128, R137). -/
theorem deliver_ended (hb : v.ds.bound = true) (buf : List Byte) :
    ∃ fs : List (List Byte),
      ((deliver conn mtu v alloc buf).connection.ds.bound = true
          ∧ (deliver conn mtu v alloc buf).events = fs.map .frame)
        ∨ ∃ k, deliver conn mtu v alloc buf = (Delivered.failed conn v.draws k).before (fs.map .frame) := by
  obtain ⟨fs, ⟨hbound, -, ht⟩ | ⟨k, hds, hd, ht⟩⟩ := runDelivery_ended ⟨conn, buf, mtu⟩ v alloc
  · exact ⟨fs, .inl ⟨hbound.trans hb, ht⟩⟩
  · refine ⟨fs, .inr ⟨k, ?_⟩⟩
    rw [deliver, Cursor.delivered, hds, hd, ht, startCursor_ds, DecodeState.resetDs_bound_eq hb]
    rfl

theorem deliver_bound (hb : v.ds.bound = true) (buf : List Byte) :
    (deliver conn mtu v alloc buf).connection.ds.bound = true := by
  obtain ⟨fs, ⟨hbound, -⟩ | ⟨k, e⟩⟩ := deliver_ended (conn := conn) (mtu := mtu) (alloc := alloc) hb buf
  · exact hbound
  · rw [e]
    rfl

/-! ### Short buffers -/

/-- An empty buffer (41_decode.md R131). -/
theorem deliver_nil (hi : v.ds.Inv) (hb : v.ds.bound = true) : deliver conn mtu v alloc [] = ⟨v, []⟩ := by
  by_cases hp : v.ds.phase = .awaitingPayload
  · obtain ⟨ds, draws⟩ := v
    obtain ⟨target, f, hlt, rfl⟩ := hi.eq_assembling hb hp
    rw [deliver_payload_short (by exact hlt), List.append_nil]
  · rw [deliver, runDelivery_nil hp]
    rfl

/-- A stray byte (41_decode.md R112, R126). -/
theorem deliver_one (hp : v.ds.phase ≠ .awaitingPayload) (hb : v.ds.bound = true) (a : Byte) :
    deliver conn mtu v alloc [a] = .failed conn v.draws .internalAccountingMismatch := by
  have hread : readHeader ⟨conn, [a], mtu⟩ (startCursor v alloc) = .exit (startCursor v alloc) :=
    readHeader_short (by simp)
  rw [deliver, runDelivery, deliverLoop_succ, deliverPass_header hp, headerStage_exit hread, Flow.carryOn,
    postCheck_mismatch (by simp), Cursor.raise_delivered hb]
  rfl

/-- The first half of a header (41_decode.md R114). -/
theorem deliver_two (a b : Byte) :
    deliver conn mtu ⟨.boundEmpty, draws⟩ alloc [a, b] = ⟨⟨.holding (le16 [a, b] 0), draws⟩, []⟩ := by
  have hread := readHeader_first_half (d := ⟨conn, [a, b], mtu⟩) (c := startCursor ⟨.boundEmpty, draws⟩ alloc) rfl (by simp)
  rw [deliver, runDelivery, deliverLoop_succ, deliverPass_header (by simp), headerStage_exit hread, Flow.carryOn,
    postCheck_ok rfl]
  rfl

/-- Three bytes of a header (41_decode.md R116). -/
theorem deliver_three (a b c : Byte) :
    deliver conn mtu ⟨.boundEmpty, draws⟩ alloc [a, b, c] = .failed conn draws .internalAccountingMismatch := by
  have hread := readHeader_three (d := ⟨conn, [a, b, c], mtu⟩) (c := startCursor ⟨.boundEmpty, draws⟩ alloc) rfl (by simp)
  rw [deliver, runDelivery, deliverLoop_succ, deliverPass_header (by simp), headerStage_abort hread, Flow.carryOn,
    Cursor.raise_delivered rfl]
  rfl

/-! ### A header, whole or split -/

/-- Two deliveries that open with the same header word are the same if they are where the header is accepted: a refused
one leaves the rest of its buffer unread (41_decode.md R117 to R119). -/
theorem deliver_header_congr {v' : Connection} {buf buf' rest rest' : List Byte} {w : Word}
    (h : HeaderArrives v.ds buf w rest) (hb : v.ds.bound = true) (h' : HeaderArrives v'.ds buf' w rest')
    (hb' : v'.ds.bound = true) (hd : v.draws = v'.draws)
    (haccepted : headerValid w = true → (headerLen w).toNat ≤ mtu + 18 → alloc.headD true = true →
      deliver conn mtu v alloc buf = deliver conn mtu v' alloc buf') :
    deliver conn mtu v alloc buf = deliver conn mtu v' alloc buf' := by
  cases hvalid : headerValid w with
  | false => rw [deliver_header_invalid h hb hvalid, deliver_header_invalid h' hb' hvalid, hd]
  | true =>
    rcases Nat.lt_or_ge (mtu + 18) (headerLen w).toNat with hsize | hsize
    · rw [deliver_header_oversized h hb hvalid hsize, deliver_header_oversized h' hb' hvalid hsize, hd]
    · cases ha : alloc.headD true with
      | false => rw [deliver_header_unallocated h hb hvalid hsize ha, deliver_header_unallocated h' hb' hvalid hsize ha, hd]
      | true => exact haccepted hvalid hsize ha

/-- Two deliveries that open with the same header word, whole or split, and the same bytes after it are the same. -/
theorem deliver_header_eq {v' : Connection} {buf buf' rest : List Byte} {w : Word} (h : HeaderArrives v.ds buf w rest)
    (hi : v.ds.Inv) (hb : v.ds.bound = true) (h' : HeaderArrives v'.ds buf' w rest) (hi' : v'.ds.Inv)
    (hb' : v'.ds.bound = true) (hd : v.draws = v'.draws) :
    deliver conn mtu v alloc buf = deliver conn mtu v' alloc buf' :=
  deliver_header_congr h hb h' hb' hd fun hvalid hsize ha => by
    rw [deliver_header_accepted h hi hb hvalid hsize ha, deliver_header_accepted h' hi' hb' hvalid hsize ha, hd]

/-- Any four bytes are those of a word. -/
theorem exists_bytes32LE_eq (a b c d : Byte) : ∃ w, bytes32LE w = [a, b, c, d] ∧ w.extractLsb' 0 16 = b ++ a := by
  refine ⟨d ++ (c ++ (b ++ a)), ?_, ?_⟩
  · rw [bytes32LE, BitVec.extractLsb'_append_eq_of_add_le (by decide), BitVec.extractLsb'_append_eq_of_add_le (by decide),
      BitVec.extractLsb'_append_eq_right, BitVec.extractLsb'_append_eq_of_add_le (by decide),
      BitVec.extractLsb'_append_eq_of_add_le (by decide), BitVec.extractLsb'_append_eq_left,
      BitVec.extractLsb'_append_eq_of_add_le (by decide), BitVec.extractLsb'_append_eq_left,
      BitVec.extractLsb'_append_eq_left]
  · rw [BitVec.extractLsb'_append_eq_of_add_le (by decide), BitVec.extractLsb'_append_eq_of_add_le (by decide)]
    exact BitVec.extractLsb'_eq_self

/-- Any half is the one read from two bytes. -/
theorem exists_le16_eq (low : Half) : ∃ a b : Byte, low = le16 [a, b] 0 := by
  refine ⟨low.extractLsb' 0 8, low.extractLsb' 8 8, ?_⟩
  rw [le16_eq_append]
  exact (BitVec.extractLsb'_append_extractLsb' (w := 8) (len := 8)).symm

theorem DecodeState.holding_inv (low : Half) : (DecodeState.holding low).Inv :=
  ⟨nofun, nofun, fun _ => ⟨rfl, rfl, rfl⟩, nofun⟩

/-- A held half-header is as good as its two bytes before the buffer (41_decode.md R112 to R116). -/
theorem deliver_holding (a b : Byte) (buf : List Byte) :
    deliver conn mtu ⟨.holding (le16 [a, b] 0), draws⟩ alloc buf
      = deliver conn mtu ⟨.boundEmpty, draws⟩ alloc (a :: b :: buf) := by
  rcases buf with _ | ⟨c, _ | ⟨d, rest⟩⟩
  · rw [deliver_two, deliver_nil (DecodeState.holding_inv _) rfl]
  · rw [deliver_three, deliver_one (by simp [DecodeState.holding]) rfl]
  · obtain ⟨w, hw, hlow⟩ := exists_bytes32LE_eq a b c d
    refine deliver_header_eq (w := w) (rest := rest) (.inr ⟨rfl, ?_, ?_⟩) (DecodeState.holding_inv _) rfl (.inl ⟨rfl, ?_⟩)
      DecodeState.boundEmpty_inv rfl rfl
    · rw [hlow]
      exact le16_eq_append _ _
    · rw [hw]; rfl
    · rw [hw]; rfl

/-- A header whose payload and pad byte arrive with it: the frame is emitted and what follows is decoded as from the empty
state (41_decode.md R120 to R125). -/
theorem deliver_header_complete {buf p tail rest : List Byte} {w : Word}
    (h : HeaderArrives v.ds buf w (p ++ tail ++ rest)) (hi : v.ds.Inv) (hb : v.ds.bound = true)
    (hvalid : headerValid w = true) (hsize : p.length ≤ mtu + 18) (ha : alloc.headD true = true)
    (hlen : (headerLen w).toNat = p.length) (htail : tail.length = p.length % 2) :
    deliver conn mtu v alloc buf
      = (deliver conn mtu ⟨.boundEmpty, v.draws⟩ alloc.tail rest).before [.frame p] := by
  rw [deliver_header_accepted h hi hb hvalid (hlen ▸ hsize) ha,
    deliver_payload_complete (by simp [hlen]) (hlen ▸ htail), List.nil_append]

/-! ### Units -/

theorem StreamUnit.wellFormed_iff {u : StreamUnit} :
    u.wellFormed mtu = true
      ↔ headerValid u.header = true ∧ (headerLen u.header).toNat = u.payload.length ∧ u.payload.length ≤ mtu + 18 := by
  simp [StreamUnit.wellFormed, and_assoc]

/-- The bytes of a unit after its payload. -/
def StreamUnit.padBytes (u : StreamUnit) : List Byte := if u.payload.length % 2 = 1 then [u.pad] else []

theorem StreamUnit.bytes_eq (u : StreamUnit) : u.bytes = bytes32LE u.header ++ u.payload ++ u.padBytes := rfl

theorem StreamUnit.padBytes_length (u : StreamUnit) : u.padBytes.length = u.payload.length % 2 := by
  rw [StreamUnit.padBytes]
  split
  · rw [List.length_singleton]; omega
  · rw [List.length_nil]; omega

theorem StreamUnit.bytes_length (u : StreamUnit) : u.bytes.length = unitLength u.payload.length := by
  rw [StreamUnit.bytes_eq, List.length_append, List.length_append, bytes32LE_length, StreamUnit.padBytes_length, unitLength]

/-- A well-formed unit is decoded to its frame, with the first allocation outcome. -/
theorem deliver_unit {u : StreamUnit} (hu : u.wellFormed mtu = true) (ha : alloc.headD true = true) (rest : List Byte) :
    deliver conn mtu ⟨.boundEmpty, draws⟩ alloc (u.bytes ++ rest)
      = (deliver conn mtu ⟨.boundEmpty, draws⟩ alloc.tail rest).before [.frame u.payload] := by
  obtain ⟨hvalid, hlen, hsize⟩ := StreamUnit.wellFormed_iff.mp hu
  have harrives : HeaderArrives DecodeState.boundEmpty (u.bytes ++ rest) u.header (u.payload ++ u.padBytes ++ rest) :=
    .inl ⟨rfl, by simp only [StreamUnit.bytes_eq, List.append_assoc]⟩
  exact deliver_header_complete (v := ⟨.boundEmpty, draws⟩) harrives DecodeState.boundEmpty_inv rfl hvalid hsize ha hlen
    u.padBytes_length

theorem take_succ_true {l : List Bool} {n : Nat} (h : ∀ x ∈ l.take (n + 1), x = true) :
    l.headD true = true ∧ ∀ x ∈ l.tail.take n, x = true := by
  cases l with
  | nil => exact ⟨rfl, by simp⟩
  | cons y l => exact List.forall_mem_cons.mp h

/-- Well-formed units take one allocation outcome each and are decoded to their frames. -/
theorem deliver_units (units : List StreamUnit) {alloc : List Bool} (hu : ∀ u ∈ units, u.wellFormed mtu = true)
    (ha : ∀ x ∈ alloc.take units.length, x = true) (rest : List Byte) :
    deliver conn mtu ⟨.boundEmpty, draws⟩ alloc (streamBytes units ++ rest)
      = (deliver conn mtu ⟨.boundEmpty, draws⟩ (alloc.drop units.length) rest).before
          (units.map fun u => .frame u.payload) := by
  induction units generalizing alloc with
  | nil => rfl
  | cons u units ih =>
    obtain ⟨hfirst, hlater⟩ := List.forall_mem_cons.mp hu
    obtain ⟨hhead, htail⟩ := take_succ_true ha
    have hbytes : streamBytes (u :: units) ++ rest = u.bytes ++ (streamBytes units ++ rest) := List.append_assoc _ _ _
    rw [hbytes, deliver_unit hfirst hhead, ih hlater htail, Delivered.before_before, List.drop_tail]
    rfl

/-- With every outcome a success, how many are given does not matter (30_encoding.md R76; log entry 7). -/
theorem deliver_allTrue (ha : ∀ x ∈ alloc, x = true) (buf : List Byte) :
    deliver conn mtu v alloc buf = deliver conn mtu v [] buf := by
  obtain ⟨m, hm⟩ := deliverLoop_allTrue ⟨conn, buf, mtu⟩ (buf.length + 1) (c := startCursor v alloc) ha (l := []) (by simp)
  have hrun : runDelivery ⟨conn, buf, mtu⟩ v [] = (runDelivery ⟨conn, buf, mtu⟩ v alloc).withAlloc m := hm
  rw [deliver, deliver, hrun]
  rfl

end

/-! ### The command -/

/-- A list of outcomes that opens with a failure. -/
theorem headD_of_head? {l : List Bool} (h : l.head? = some false) : l.headD true = false := by
  rw [List.headD_eq_head?_getD, h, Option.getD_some]

/-- A connection that is bound and empty is known by what it has drawn. -/
theorem State.connection_eq {s : State} (hds : s.connection.ds = .boundEmpty) :
    s.connection = ⟨.boundEmpty, s.connection.draws⟩ := by
  rw [← hds]

theorem State.connection_bound {s : State} (hds : s.connection.ds = .boundEmpty) : s.connection.ds.bound = true := by
  rw [hds]
  rfl

/-- A connection with a frame in progress, known by what the frame holds. -/
theorem State.Inv.assembling {s : State} {f : List Byte} (hs : s.Inv) (hb : s.connection.ds.bound = true)
    (hp : s.connection.ds.phase = .awaitingPayload) (hf : s.connection.ds.frame = some f) :
    ∃ target, s.connection = ⟨.assembling target f, s.connection.draws⟩ := by
  obtain ⟨target, g, -, hds⟩ := hs.connection.eq_assembling hb hp
  obtain rfl : g = f := Option.some.inj (by rw [← hf, hds]; rfl)
  exact ⟨target, by rw [← hds]⟩

section
variable {s : State} {buf : List Byte} {mtu : Nat} {alloc : List Bool}

theorem exec_deliver_answer (hb : s.connection.ds.bound = true) (hm : mtu ≤ 65535) (buf : List Byte) (alloc : List Bool) :
    exec (.deliver buf mtu alloc) s = .next (s.answer (deliver s.conn mtu s.connection alloc buf)) :=
  exec_deliver hb hm buf alloc

theorem State.answer_others (s : State) (r : Delivered) : State.OthersUnchanged s (s.answer r) :=
  State.emit_others (State.setConnection_others s _) _

theorem State.answer_connection (h : connsWf s.conns = true) (r : Delivered) : (s.answer r).connection = r.connection :=
  State.setConnection_connection h _

@[simp] theorem State.eventsSince_answer (s : State) (r : Delivered) : s.eventsSince (s.answer r) = r.events := by
  simp [State.eventsSince, State.answer, Output.events]

/-- Two answers that give the same state leave the same map of connections and return the same events. -/
theorem State.answer_inj {r r' : Delivered} (h : s.answer r = s.answer r') :
    s.setConnection r.connection = s.setConnection r'.connection ∧ r.events = r'.events :=
  ⟨congrArg (fun t : State => { t with outputs := s.outputs }) h, by simpa using congrArg s.eventsSince h⟩

/-- A DELIVER known by its answer. -/
theorem answer_of_exec_deliver {v : Connection} {es : List Event} (hb : s.connection.ds.bound = true) (hm : mtu ≤ 65535)
    (h : exec (.deliver buf mtu alloc) s = .next ((s.setConnection v).emit (.trace es))) :
    s.setConnection v = s.setConnection (deliver s.conn mtu s.connection alloc buf).connection
      ∧ es = (deliver s.conn mtu s.connection alloc buf).events := by
  rw [exec_deliver_answer hb hm] at h
  exact State.answer_inj (r := ⟨v, es⟩) (Host.Outcome.next.inj h).symm

/-- In a canonical map the answer of a DELIVER tells the connection it left. -/
theorem deliver_eq_of_exec {v : Connection} {es : List Event} (hwf : connsWf s.conns = true)
    (hb : s.connection.ds.bound = true) (hm : mtu ≤ 65535)
    (h : exec (.deliver buf mtu alloc) s = .next ((s.setConnection v).emit (.trace es))) :
    deliver s.conn mtu s.connection alloc buf = ⟨v, es⟩ := by
  obtain ⟨hset, rfl⟩ := answer_of_exec_deliver hb hm h
  have hv := congrArg State.connection hset
  rw [State.setConnection_connection hwf, State.setConnection_connection hwf] at hv
  rw [hv]

/-- The same, of a DELIVER in the state `s` with its connection bound and empty. -/
theorem deliver_boundEmpty_eq_of_exec {draws : Nat} {v : Connection} {es : List Event} (hwf : connsWf s.conns = true)
    (hm : mtu ≤ 65535)
    (h : exec (.deliver buf mtu alloc) (s.setConnection ⟨.boundEmpty, draws⟩)
      = .next (((s.setConnection ⟨.boundEmpty, draws⟩).setConnection v).emit (.trace es))) :
    deliver s.conn mtu ⟨.boundEmpty, draws⟩ alloc buf = ⟨v, es⟩ := by
  have hempty := State.setConnection_connection hwf ⟨.boundEmpty, draws⟩
  have heq := deliver_eq_of_exec (storeConn_keeps_wf _ _ hwf) (by rw [hempty]; rfl) hm h
  rwa [hempty] at heq

end

end Sys2Proof.Machine
end

section
/-! PROOFS. The statements of 41_decode.md about one DELIVER. -/

namespace Sys2Proof.Machine

/-- Settles O32, by `exec_deliver_unbound`: the binding is checked before the buffer is looked at. -/
theorem deliverUnboundFaults : Obligations.DeliverUnboundFaults :=
  fun _ buf _ alloc hb hm => exec_deliver_unbound hb hm buf alloc

/-- Settles O35, by `deliver_one`. -/
theorem strayByteLosesTheHeldHalf : Obligations.StrayByteLosesTheHeldHalf := by
  intro s a mtu alloc hb hp hm
  rw [exec_deliver_answer hb hm, deliver_one (by simp [hp]) hb]
  rfl

/-- Settles O31, by `exec_deliver_answer` and `deliver_bound`. -/
theorem deliverCompletesOnEveryBuffer : Obligations.DeliverCompletesOnEveryBuffer := by
  intro s buf mtu alloc hb hm
  exact ⟨_, _, deliver_bound hb buf, exec_deliver_answer hb hm buf alloc, State.answer_others s _⟩

/-- Settles O33, by `deliver_nil`: storing the connection that was there changes nothing. -/
theorem emptyBufferChangesNothing : Obligations.EmptyBufferChangesNothing := by
  intro s mtu alloc hs hb hm
  rw [exec_deliver_answer hb hm, deliver_nil hs.connection hb, State.answer, State.setConnection_self hs.1]

/-- Settles O34: the units are decoded one by one (`deliver_units`), then one, two or three bytes are left. -/
theorem leftoverBytesWhereAHeaderIsExpected : Obligations.LeftoverBytesWhereAHeaderIsExpected := by
  intro s units a b c mtu alloc hds hm ha hu
  have hconn := State.connection_eq hds
  have hb := State.connection_bound hds
  have hexec (rest : List Byte) : exec (.deliver (streamBytes units ++ rest) mtu alloc) s
      = .next (s.answer ((deliver s.conn mtu ⟨.boundEmpty, s.connection.draws⟩ (alloc.drop units.length) rest).before
          (units.map fun u => .frame u.payload))) := by
    rw [exec_deliver_answer hb hm, ← deliver_units units hu (fun x hx => ha x (List.mem_of_mem_take hx)), ← hconn]
  have hhalf : le16 [a, b] 0 = BitVec.ofNat 16 (a.toNat + 256 * b.toNat) := by
    apply BitVec.eq_of_toNat_eq
    rw [le16_eq_append, append_toNat, BitVec.toNat_ofNat]
    simp only [byteAt, List.getD_cons_zero, List.getD_cons_succ]
    omega
  refine ⟨?_, ?_, ?_⟩
  · rw [hexec, deliver_one (by simp) rfl]
    rfl
  · rw [hexec, deliver_two, hhalf, Delivered.before, List.append_nil]
    rfl
  · rw [hexec, deliver_three]
    rfl

/-- Settles O36, by `deliver_header_invalid`, `deliver_header_oversized` and `deliver_header_unallocated`. -/
theorem headerChecksAbortInOrder : Obligations.HeaderChecksAbortInOrder := by
  intro s w buf rest mtu alloc hb hm h
  rw [exec_deliver_answer hb hm]
  refine ⟨fun hvalid => ?_, fun hvalid hsize => ?_, fun hvalid hsize ha => ?_⟩
  · rw [deliver_header_invalid h hb hvalid]
    rfl
  · rw [deliver_header_oversized h hb hvalid hsize]
    rfl
  · rw [deliver_header_unallocated h hb hvalid hsize (headD_of_head? ha)]
    rfl

/-- Settles O37: the header starts a frame that holds nothing, and the payload does not complete it. -/
theorem acceptedHeaderStartsAFrame : Obligations.AcceptedHeaderStartsAFrame := by
  intro s w buf rest mtu alloc hs hb hm h hvalid hsize ha hshort
  rw [exec_deliver_answer hb hm, deliver_header_accepted h hs.connection hb hvalid hsize (headD_of_head?_ne ha),
    deliver_payload_short (by simpa using hshort)]
  rfl

/-- Settles O38: with its pad byte by `deliver_header_complete`, where nothing is left to decode; without it by
`deliver_payload_pad_missing`. -/
theorem wholeUnitEmitsItsFrame : Obligations.WholeUnitEmitsItsFrame := by
  intro s w buf payload tail mtu alloc hs hb hm h hvalid hlen hsize ha
  rw [exec_deliver_answer hb hm]
  refine ⟨fun htail => ?_, fun hodd htail => ?_⟩
  · rw [← List.append_nil (payload ++ tail)] at h
    rw [deliver_header_complete h hs.connection hb hvalid hsize (headD_of_head?_ne ha) hlen htail,
      deliver_nil DecodeState.boundEmpty_inv rfl]
    rfl
  · rw [htail, List.append_nil] at h
    rw [deliver_header_accepted h hs.connection hb hvalid (hlen ▸ hsize) (headD_of_head?_ne ha),
      deliver_payload_pad_missing (by simp [hlen]) (hlen ▸ hodd)]
    rfl

/-- Settles O39, by `deliver_payload_short`. -/
theorem payloadCarriesOnUnderAnyMtu : Obligations.PayloadCarriesOnUnderAnyMtu := by
  intro s f buf mtu alloc hs hb hp hf hm hlen
  obtain ⟨target, hconn⟩ := hs.assembling hb hp hf
  rw [exec_deliver_answer hb hm]
  rw [hconn] at hlen ⊢
  rw [deliver_payload_short (by exact hlen), DecodeState.assembling, List.length_append]
  rfl

/-- Settles O40, by `deliver_payload_complete` and `deliver_payload_pad_missing`. -/
theorem payloadCompletesUnderAnyMtu : Obligations.PayloadCompletesUnderAnyMtu := by
  intro s f p mtu alloc hs hb hp hf hm hlen
  obtain ⟨target, hconn⟩ := hs.assembling hb hp hf
  have htarget : s.connection.ds.target = target := by rw [hconn]; rfl
  rw [htarget] at hlen ⊢
  refine ⟨fun tail rest v es htail hrest => ?_, fun hodd => ?_⟩
  · rw [exec_deliver_answer hb hm, hconn, deliver_payload_complete hlen htail,
      deliver_boundEmpty_eq_of_exec hs.1 hm hrest]
    rfl
  · rw [exec_deliver_answer hb hm, hconn, deliver_payload_pad_missing hlen hodd]
    rfl

/-- Settles O41, by `deliver_units`. -/
theorem unitsThenRest : Obligations.UnitsThenRest := by
  intro s units rest mtu alloc alloc' v es hds hm hu htake halloc' hrest
  have hconn := State.connection_eq hds
  have hb := State.connection_bound hds
  have hsame : deliver s.conn mtu s.connection (alloc.drop units.length) rest
      = deliver s.conn mtu s.connection alloc' rest := by
    rcases halloc' with rfl | ⟨ha, ha'⟩
    · rfl
    · rw [deliver_allTrue (fun x hx => ha x (List.mem_of_mem_drop hx)), deliver_allTrue ha']
  obtain ⟨hset, hes⟩ := answer_of_exec_deliver hb hm hrest
  rw [exec_deliver_answer hb hm, hconn, deliver_units units hu htake, ← hconn, hsame, State.answer,
    Delivered.before_connection, ← hset, Delivered.before_events, ← hes]

/-- Settles O42: a header of length 0 is a whole unit, with no payload and no pad byte. -/
theorem zeroLengthUnitEmitsAnEmptyFrame : Obligations.ZeroLengthUnitEmitsAnEmptyFrame := by
  refine ⟨by decide, fun s w buf rest mtu alloc v es hs hb hm h hvalid hlen => ?_⟩
  have hzero : (headerLen w).toNat = 0 := by rw [hlen]; rfl
  rw [exec_deliver_answer hb hm]
  refine ⟨fun ha => ?_, fun ha hrest => ?_⟩
  · rw [deliver_header_unallocated h hb hvalid (by omega) (headD_of_head? ha)]
    rfl
  · rw [deliver_header_complete (p := []) (tail := []) h hs.connection hb hvalid (Nat.zero_le _) (headD_of_head?_ne ha)
      hzero rfl, deliver_boundEmpty_eq_of_exec hs.1 hm hrest]
    rfl

/-- Settles O43: a refused header leaves all of it unread, and an accepted one has the byte skipped. -/
theorem padByteIsNeverRead : Obligations.PadByteIsNeverRead := by
  intro s w buf buf' payload rest b b' mtu alloc hs h h' hlen hodd
  rcases Nat.lt_or_ge 65535 mtu with hm | hm
  · rw [exec_deliver_wide hm, exec_deliver_wide hm]
  · cases hb : s.connection.ds.bound with
    | false => rw [exec_deliver_unbound hb hm, exec_deliver_unbound hb hm]
    | true =>
      rw [exec_deliver_answer hb hm, exec_deliver_answer hb hm]
      congr 2
      refine deliver_header_congr h hb h' hb rfl fun hvalid hsize ha => ?_
      have skipped {buf : List Byte} {b : Byte} (h : HeaderArrives s.connection.ds buf w (payload ++ b :: rest)) :=
        deliver_header_complete (conn := s.conn) (tail := [b]) (rest := rest) (by rwa [List.append_cons] at h)
          hs.connection hb hvalid (hlen ▸ hsize) ha hlen hodd.symm
      rw [skipped h, skipped h']

/-- Settles O45, by `deliver_ended`. -/
theorem traceIsFramesThenAtMostOneError : Obligations.TraceIsFramesThenAtMostOneError := by
  intro s buf mtu alloc hb hm
  have hexec := exec_deliver_answer hb hm buf alloc
  obtain ⟨fs, ⟨-, hes⟩ | ⟨k, e⟩⟩ := deliver_ended (conn := s.conn) (mtu := mtu) (alloc := alloc) hb buf
  · refine ⟨(deliver s.conn mtu s.connection alloc buf).connection, fs, [], ?_, .inl rfl⟩
    rw [hexec, State.answer, hes, List.append_nil]
  · rw [e] at hexec
    exact ⟨_, fs, _, hexec, .inr ⟨k, _, rfl, rfl⟩⟩

/-- Settles O46, by `deliver_ended`: a DELIVER that ends without an error returns frames only. -/
theorem everyErrorResetsTheDecodeState : Obligations.EveryErrorResetsTheDecodeState := by
  intro s buf mtu alloc v es k x hb hm h hwf hmem
  have hanswer := deliver_eq_of_exec hwf hb hm h
  obtain ⟨fs, ⟨-, hes⟩ | ⟨k', e⟩⟩ := deliver_ended (conn := s.conn) (mtu := mtu) (alloc := alloc) hb buf
  · rw [hanswer] at hes
    obtain rfl : es = fs.map .frame := hes
    simp at hmem
  · rw [hanswer] at e
    obtain ⟨rfl, rfl⟩ : v = _ ∧ es = _ := Delivered.mk.inj e
    obtain ⟨-, hx⟩ : k = k' ∧ x = Config.errorContext s.conn s.connection.draws := by
      simpa [Delivered.failed] using hmem
    exact ⟨rfl, hx⟩

end Sys2Proof.Machine
end

section
/-! SUPPORT. Two buffers in a row, every allocation succeeding: where the first raises no error, the two are delivered as
one. -/

namespace Sys2Proof.Machine

/-- No event is an error. -/
def ErrorFree (es : List Event) : Prop := ∀ e ∈ es, e.errorKind = none

theorem ErrorFree.append {es fs : List Event} : ErrorFree (es ++ fs) ↔ ErrorFree es ∧ ErrorFree fs :=
  List.forall_mem_append

theorem Delivered.failed_not_errorFree (conn draws : Nat) (k : ErrorKind) (es : List Event) :
    ¬ ErrorFree ((failed conn draws k).before es).events := fun h => by
  have := h (.error k (Config.errorContext conn draws)) (by simp [failed])
  cases this

/-- Where `x` raises no error on `v`, whatever follows it is delivered as it would be in a buffer of its own. -/
def Concatenates (conn mtu : Nat) (v : Connection) (x : List Byte) : Prop :=
  ErrorFree (deliver conn mtu v [] x).events → ∀ y,
    deliver conn mtu v [] (x ++ y)
      = (deliver conn mtu (deliver conn mtu v [] x).connection [] y).before (deliver conn mtu v [] x).events

section
variable {conn mtu draws : Nat} {v v' : Connection} {x x' : List Byte} {es : List Event}

theorem Concatenates.of_failed {n : Nat} {k : ErrorKind}
    (h : deliver conn mtu v [] x = (Delivered.failed conn n k).before es) : Concatenates conn mtu v x :=
  fun hfree => absurd (h ▸ hfree) (Delivered.failed_not_errorFree conn n k es)

/-- A buffer that emits nothing and only moves the connection on. -/
theorem Concatenates.of_silent (h : deliver conn mtu v [] x = ⟨v', []⟩)
    (happend : ∀ y, deliver conn mtu v [] (x ++ y) = deliver conn mtu v' [] y) : Concatenates conn mtu v x := by
  intro _ y
  rw [happend, h, Delivered.before_nil]

/-- A buffer that emits `es` and leaves the rest of it, `x'`, to the connection `v'`. -/
theorem Concatenates.of_before
    (h : ∀ y, deliver conn mtu v [] (x ++ y) = (deliver conn mtu v' [] (x' ++ y)).before es)
    (hc : Concatenates conn mtu v' x') : Concatenates conn mtu v x := by
  have hx := h []
  rw [List.append_nil, List.append_nil] at hx
  intro hfree y
  rw [hx, Delivered.before_events] at hfree
  obtain ⟨-, hfree⟩ := ErrorFree.append.mp hfree
  rw [h, hc hfree, hx, Delivered.before_before, Delivered.before_connection, Delivered.before_events]

/-- Payload bytes that do not complete a frame may come in a buffer of their own (41_decode.md R122). -/
theorem deliver_assembling_append {target : Len} {f x : List Byte} (h : f.length + x.length < target.toNat)
    (y : List Byte) :
    deliver conn mtu ⟨.assembling target f, draws⟩ [] (x ++ y)
      = deliver conn mtu ⟨.assembling target (f ++ x), draws⟩ [] y := by
  have hlen (z : List Byte) : f.length + (x ++ z).length = (f ++ x).length + z.length := by
    simp only [List.length_append, Nat.add_assoc]
  rcases payload_cases (target := target) (f := f ++ x) (by simp; omega) y with
    hshort | ⟨hwhole, hodd⟩ | ⟨p, tail, rest, rfl, hwhole, htail⟩
  · rw [deliver_payload_short hshort, deliver_payload_short (hlen y ▸ hshort), List.append_assoc]
  · rw [deliver_payload_pad_missing hwhole hodd, deliver_payload_pad_missing (hlen y ▸ hwhole) hodd, List.append_assoc]
  · rw [deliver_payload_complete hwhole htail, ← List.append_assoc, ← List.append_assoc,
      deliver_payload_complete (hlen p ▸ hwhole) htail, List.append_assoc]

/-- A frame in progress takes its bytes first; what follows them is as from the empty state. -/
theorem assembling_concatenates {target : Len} {f : List Byte} (hf : f.length ≤ target.toNat) (x : List Byte)
    (hempty : ∀ rest, rest.length ≤ x.length → Concatenates conn mtu ⟨.boundEmpty, draws⟩ rest) :
    Concatenates conn mtu ⟨.assembling target f, draws⟩ x := by
  rcases payload_cases hf x with hshort | ⟨hwhole, hodd⟩ | ⟨p, tail, rest, rfl, hwhole, htail⟩
  · exact .of_silent (deliver_payload_short hshort) (deliver_assembling_append hshort)
  · exact .of_failed (deliver_payload_pad_missing hwhole hodd)
  · refine .of_before (es := [.frame (f ++ p)]) (fun y => ?_) (hempty rest (by simp; omega))
    rw [List.append_assoc (p ++ tail), deliver_payload_complete hwhole htail]

/-- A buffer from the empty state, by what it opens with: too little for a header, or a header and what it leads to. -/
theorem boundEmpty_concatenates (x : List Byte) : Concatenates conn mtu ⟨.boundEmpty, draws⟩ x := by
  induction hn : x.length using Nat.strong_induction_on generalizing x with
  | _ n ih =>
    rcases x with _ | ⟨a, _ | ⟨b, _ | ⟨c, _ | ⟨d, x⟩⟩⟩⟩
    · exact .of_silent (deliver_nil DecodeState.boundEmpty_inv rfl) fun _ => rfl
    · exact .of_failed (es := []) (deliver_one (by simp) rfl a)
    · exact .of_silent (deliver_two a b) fun y => (deliver_holding a b y).symm
    · exact .of_failed (es := []) (deliver_three a b c)
    · obtain ⟨w, hw, -⟩ := exists_bytes32LE_eq a b c d
      have harrives (y : List Byte) : HeaderArrives DecodeState.boundEmpty (a :: b :: c :: d :: x ++ y) w (x ++ y) :=
        .inl ⟨rfl, by rw [hw]; rfl⟩
      have halone := harrives []
      rw [List.append_nil, List.append_nil] at halone
      cases hvalid : headerValid w with
      | false => exact .of_failed (es := []) (deliver_header_invalid halone rfl hvalid)
      | true =>
        rcases Nat.lt_or_ge (mtu + 18) (headerLen w).toNat with hsize | hsize
        · exact .of_failed (es := []) (deliver_header_oversized halone rfl hvalid hsize)
        · refine .of_before (es := []) (fun y => deliver_header_accepted (v := ⟨.boundEmpty, draws⟩) (harrives y)
            DecodeState.boundEmpty_inv rfl hvalid hsize rfl) ?_
          exact assembling_concatenates (Nat.zero_le _) x fun rest hrest =>
            ih rest.length (by simp at hn; omega) rest rfl

/-- Every connection that meets its invariant holds nothing, a half-header or a frame in progress. -/
theorem concatenates (hi : v.ds.Inv) (hb : v.ds.bound = true) (x : List Byte) : Concatenates conn mtu v x := by
  obtain ⟨ds, draws⟩ := v
  cases hp : ds.phase with
  | awaitingHeader =>
    obtain rfl := hi.eq_boundEmpty hb hp
    exact boundEmpty_concatenates x
  | headerSplit =>
    obtain ⟨low, rfl⟩ : ∃ low, ds = .holding low := ⟨_, hi.eq_holding hb hp⟩
    obtain ⟨a, b, rfl⟩ := exists_le16_eq low
    exact .of_before (es := []) (deliver_holding a b <| x ++ ·) (boundEmpty_concatenates (a :: b :: x))
  | awaitingPayload =>
    obtain ⟨target, f, hlt, rfl⟩ := hi.eq_assembling hb hp
    exact assembling_concatenates hlt.le x fun rest _ => boundEmpty_concatenates rest

end

/-! ### Answers in a row -/

/-- The second of two stores at one number is the one that counts. -/
theorem storeConn_storeConn {l : List (Nat × Connection)} (hl : connsWf l = true) (c : Nat) (v w : Connection) :
    storeConn (storeConn l c v) c w = storeConn l c w := by
  have hv := storeConn_keeps_wf c v hl
  refine connsWf_ext (storeConn_keeps_wf c w hv) (storeConn_keeps_wf c w hl) fun k => ?_
  by_cases hk : k = c
  · subst hk
    rw [lookupConn_storeConn_same _ _ hv, lookupConn_storeConn_same _ _ hl]
  · simp only [lookupConn_storeConn_other hk]

section
variable {s : State} {r r' : Delivered}

@[simp] theorem State.answer_conn : (s.answer r).conn = s.conn := rfl
@[simp] theorem State.answer_outputs : (s.answer r).outputs = s.outputs ++ [⟨s.conn, .trace r.events⟩] := rfl

theorem State.answer_answer_conns (h : connsWf s.conns = true) :
    ((s.answer r).answer r').conns = storeConn s.conns s.conn r'.connection :=
  storeConn_storeConn h _ _ _

theorem State.eventsSince_answer_answer : s.eventsSince ((s.answer r).answer r') = r.events ++ r'.events := by
  simp [State.eventsSince, Output.events]

end

end Sys2Proof.Machine
end

section
/-! PROOFS. The statements of 41_decode.md about buffers in a row. -/

namespace Sys2Proof.Machine

/-- Settles O50, by `concatenates`; on an unbound connection all three deliveries fault. -/
theorem errorFreeBuffersConcatenate : Obligations.ErrorFreeBuffersConcatenate := by
  intro s t u x y mtu ax ay axy hs hm hax hay haxy hx hfree hy
  cases hb : s.connection.ds.bound with
  | false =>
    rw [exec_deliver_unbound hb hm] at hx
    cases hx
    rw [exec_deliver_unbound (s := s.recordFault .deliverUnbound) hb hm] at hy
    cases hy
    exact ⟨_, exec_deliver_unbound hb hm _ _, rfl, by simp [State.eventsSince]⟩
  | true =>
    rw [exec_deliver_answer hb hm, deliver_allTrue hax] at hx
    cases hx
    rw [State.eventsSince_answer] at hfree
    have hconn := State.answer_connection hs.1 (deliver s.conn mtu s.connection [] x)
    rw [exec_deliver_answer (by rw [hconn]; exact deliver_bound hb x) hm, deliver_allTrue hay, hconn,
      State.answer_conn] at hy
    cases hy
    refine ⟨_, exec_deliver_answer hb hm _ _, ?_, ?_⟩
    · rw [deliver_allTrue haxy, concatenates hs.connection hb x hfree, State.answer_answer_conns hs.1]
      rfl
    · rw [deliver_allTrue haxy, concatenates hs.connection hb x hfree, State.eventsSince_answer,
        State.eventsSince_answer_answer, Delivered.before_events]

end Sys2Proof.Machine
end

section
/-! SUPPORT. A well-formed stream cut into buffers (41_decode.md R130): what its first bytes raise is told by where they
end. -/

namespace Sys2Proof.Machine

/-! ### Bad cuts -/

theorem badCut_shift (k s : Nat) (units : List StreamUnit) (p : Nat) :
    badCut (k + s) units (k + p) = badCut s units p := by
  induction units generalizing s with
  | nil => rfl
  | cons u units ih => simp only [badCut, Nat.add_assoc, Nat.add_left_cancel_iff, ih]

/-- A bad cut lies after the start of the stream. -/
theorem lt_of_badCut {s p : Nat} {units : List StreamUnit} (h : badCut s units p = true) : s < p := by
  induction units generalizing s with
  | nil => cases h
  | cons u units ih =>
    simp only [badCut, Bool.or_eq_true, Bool.and_eq_true, decide_eq_true_eq] at h
    rcases h with ((h | h) | ⟨-, h⟩) | h
    · omega
    · omega
    · omega
    · exact (Nat.le_add_right _ _).trans_lt (ih h)

/-- The bad cuts within the first unit or at its end. -/
theorem badCut_first {u : StreamUnit} {p : Nat} (hp : p ≤ unitLength u.payload.length) (units : List StreamUnit) :
    badCut 0 (u :: units) p
      = decide (p = 1 ∨ p = 3 ∨ (u.payload.length % 2 = 1 ∧ p = 4 + u.payload.length)) := by
  have hlater : badCut (0 + unitLength u.payload.length) units p = false :=
    Bool.eq_false_iff.mpr fun h => by have := lt_of_badCut h; omega
  rw [badCut, hlater]
  simp [Bool.or_assoc]

/-- The bad cuts after the first unit are those of the units that follow it. -/
theorem badCut_later (u : StreamUnit) (units : List StreamUnit) (p : Nat) :
    badCut 0 (u :: units) (unitLength u.payload.length + p) = badCut 0 units p := by
  have hlater := badCut_shift (unitLength u.payload.length) 0 units p
  rw [Nat.add_comm _ 0] at hlater
  have hlen : unitLength u.payload.length = 4 + u.payload.length + u.payload.length % 2 := rfl
  rw [badCut, hlater]
  simp
  omega

/-! ### The first bytes of a stream -/

/-- Some event is an InternalAccountingMismatch. -/
def HasMismatch (es : List Event) : Prop := some .internalAccountingMismatch ∈ es.map Event.errorKind

/-- What the first bytes of a stream raise: a mismatch where they end at a bad cut, no error elsewhere. -/
def CutShows (bad : Bool) (es : List Event) : Prop := if bad = true then HasMismatch es else ErrorFree es

theorem HasMismatch.append {es fs : List Event} : HasMismatch (es ++ fs) ↔ HasMismatch es ∨ HasMismatch fs := by
  rw [HasMismatch, List.map_append, List.mem_append]
  rfl

theorem ErrorFree.not_hasMismatch {es : List Event} (h : ErrorFree es) : ¬ HasMismatch es := fun hm => by
  obtain ⟨e, he, hk⟩ := List.mem_map.mp hm
  cases (h e he).symm.trans hk

theorem ErrorFree.frames (fs : List (List Byte)) : ErrorFree (fs.map .frame) := by
  intro e he
  obtain ⟨b, -, rfl⟩ := List.mem_map.mp he
  rfl

theorem CutShows.frame {bad : Bool} {es : List Event} (h : CutShows bad es) (bytes : List Byte) :
    CutShows bad ([.frame bytes] ++ es) := by
  cases bad with
  | true => exact HasMismatch.append.mpr (.inr h)
  | false => exact ErrorFree.append.mpr ⟨ErrorFree.frames [bytes], h⟩

theorem CutShows.mismatch (conn draws : Nat) (es : List Event) :
    CutShows true ((Delivered.failed conn draws .internalAccountingMismatch).before es).events :=
  HasMismatch.append.mpr (.inr List.mem_cons_self)

theorem CutShows.silent : CutShows false [] := nofun

section
variable {conn mtu draws : Nat} {u : StreamUnit} {units : List StreamUnit} {x z : List Byte}

/-- A buffer that ends within the first unit, or with it. -/
theorem deliver_unit_opening (hu : u.wellFormed mtu = true) (h : u.bytes = x ++ z) (units : List StreamUnit) :
    CutShows (badCut 0 (u :: units) x.length) (deliver conn mtu ⟨.boundEmpty, draws⟩ [] x).events := by
  obtain ⟨hvalid, hlen, hsize⟩ := StreamUnit.wellFormed_iff.mp hu
  have hunit : x.length + z.length = unitLength u.payload.length := by rw [← StreamUnit.bytes_length, h, List.length_append]
  rw [badCut_first (by omega)]
  by_cases h4 : 4 ≤ x.length
  · obtain ⟨r, rfl⟩ : bytes32LE u.header <+: x :=
      List.prefix_of_prefix_length_le ⟨u.payload ++ u.padBytes, by rw [StreamUnit.bytes_eq, List.append_assoc]⟩ ⟨z, h.symm⟩ h4
    rw [StreamUnit.bytes_eq, List.append_assoc, List.append_assoc, List.append_cancel_left_eq] at h
    rw [List.length_append, bytes32LE_length] at hunit ⊢
    have haccept := deliver_header_accepted (conn := conn) (v := ⟨.boundEmpty, draws⟩) (alloc := []) (rest := r)
      (.inl ⟨rfl, rfl⟩) DecodeState.boundEmpty_inv rfl hvalid (hlen ▸ hsize) rfl
    rw [haccept]
    rcases payload_cases (f := []) (Nat.zero_le (headerLen u.header).toNat) r with
      hshort | ⟨hwhole, hodd⟩ | ⟨p, tail, rest, rfl, hwhole, htail⟩
    · rw [deliver_payload_short hshort, decide_eq_false (by simp at hshort; omega)]
      exact .silent
    · rw [deliver_payload_pad_missing hwhole hodd, decide_eq_true (by simp at hwhole; omega)]
      exact .mismatch _ _ _
    · have hrest : rest = [] := List.eq_nil_of_length_eq_zero (by simp [unitLength] at hwhole hunit; omega)
      rw [deliver_payload_complete hwhole htail, hrest, deliver_nil DecodeState.boundEmpty_inv rfl,
        decide_eq_false (by simp at hwhole ⊢; omega)]
      exact CutShows.silent.frame _
  · rcases x with _ | ⟨a, _ | ⟨b, _ | ⟨c, _ | ⟨d, x⟩⟩⟩⟩
    · rw [deliver_nil DecodeState.boundEmpty_inv rfl, decide_eq_false (by simp; omega)]
      exact .silent
    · rw [deliver_one (by simp) rfl, decide_eq_true (by simp)]
      exact .mismatch _ _ []
    · rw [deliver_two, decide_eq_false (by simp; omega)]
      exact .silent
    · rw [deliver_three, decide_eq_true (by simp)]
      exact .mismatch _ _ []
    · simp at h4

/-- The first bytes of a well-formed stream raise a mismatch where they end at a bad cut, and no error elsewhere
(41_decode.md R130). -/
theorem deliver_stream_opening (hu : ∀ u ∈ units, u.wellFormed mtu = true) (h : x ++ z = streamBytes units) :
    CutShows (badCut 0 units x.length) (deliver conn mtu ⟨.boundEmpty, draws⟩ [] x).events := by
  induction units generalizing x with
  | nil =>
    obtain ⟨rfl, -⟩ := List.append_eq_nil_iff.mp h
    rw [deliver_nil DecodeState.boundEmpty_inv rfl]
    exact .silent
  | cons u units ih =>
    obtain ⟨hfirst, hlater⟩ := List.forall_mem_cons.mp hu
    rcases List.append_eq_append_iff.mp (h : x ++ z = u.bytes ++ streamBytes units) with ⟨z', hx, -⟩ | ⟨x', rfl, hx'⟩
    · exact deliver_unit_opening hfirst hx units
    · rw [deliver_unit hfirst rfl, List.length_append, StreamUnit.bytes_length, badCut_later]
      exact (ih hlater hx'.symm).frame _

/-! ### Buffers in a row -/

/-- DELIVER of each buffer in order, all with one list of outcomes. -/
def deliverAll (conn mtu : Nat) (alloc : List Bool) : Connection → List (List Byte) → Delivered
  | v, [] => ⟨v, []⟩
  | v, b :: rest =>
    (deliverAll conn mtu alloc (deliver conn mtu v alloc b).connection rest).before (deliver conn mtu v alloc b).events

theorem deliverAll_allTrue {alloc : List Bool} (ha : ∀ x ∈ alloc, x = true) (v : Connection) (buffers : List (List Byte)) :
    deliverAll conn mtu alloc v buffers = deliverAll conn mtu [] v buffers := by
  induction buffers generalizing v with
  | nil => rfl
  | cons b buffers ih => rw [deliverAll, deliverAll, deliver_allTrue ha, ih]

/-- A run of DELIVERs on a bound connection completes, and does what `deliverAll` says. -/
theorem runDelivers_deliverAll {s : State} {alloc : List Bool} (hwf : connsWf s.conns = true)
    (hb : s.connection.ds.bound = true) (hm : mtu ≤ 65535) (buffers : List (List Byte)) :
    ∃ t new, runDelivers mtu alloc buffers s = .next t
      ∧ t.connection = (deliverAll s.conn mtu alloc s.connection buffers).connection
      ∧ t.outputs = s.outputs ++ new
      ∧ new.flatMap (fun e => e.output.events) = (deliverAll s.conn mtu alloc s.connection buffers).events := by
  induction buffers generalizing s with
  | nil => exact ⟨s, [], rfl, rfl, (List.append_nil _).symm, rfl⟩
  | cons b buffers ih =>
    have hconn := State.answer_connection hwf (deliver s.conn mtu s.connection alloc b)
    obtain ⟨t, new, hrun, ht, hout, hes⟩ := ih (s := s.answer (deliver s.conn mtu s.connection alloc b))
      (storeConn_keeps_wf _ _ hwf) (by rw [hconn]; exact deliver_bound hb b)
    rw [hconn] at ht hes
    refine ⟨t, ⟨s.conn, .trace (deliver s.conn mtu s.connection alloc b).events⟩ :: new, ?_, ht, ?_, ?_⟩
    · rw [runDelivers, exec_deliver_answer hb hm]
      exact hrun
    · rw [hout, State.answer_outputs, List.append_assoc]
      rfl
    · rw [List.flatMap_cons, hes]
      rfl

/-- Buffers none of which ends at a bad cut: from where the bytes `done` have been delivered, they do what one DELIVER of all
the bytes does. -/
theorem deliverAll_of_no_badCut (hu : ∀ u ∈ units, u.wellFormed mtu = true) {done : List Byte} {buffers : List (List Byte)}
    (hstream : done ++ buffers.flatten = streamBytes units)
    (hfree : ErrorFree (deliver conn mtu ⟨.boundEmpty, draws⟩ [] done).events)
    (hcuts : ∀ p ∈ cutPositions done.length buffers, badCut 0 units p = false) :
    (deliverAll conn mtu [] (deliver conn mtu ⟨.boundEmpty, draws⟩ [] done).connection buffers).before
        (deliver conn mtu ⟨.boundEmpty, draws⟩ [] done).events
      = deliver conn mtu ⟨.boundEmpty, draws⟩ [] (streamBytes units) := by
  induction buffers generalizing done with
  | nil =>
    rw [List.flatten_nil, List.append_nil] at hstream
    rw [← hstream, deliverAll, Delivered.before, List.append_nil]
  | cons b buffers ih =>
    obtain ⟨hfirst, hlater⟩ := List.forall_mem_cons.mp hcuts
    rw [← List.length_append] at hfirst hlater
    rw [List.flatten_cons, ← List.append_assoc] at hstream
    have hshows := deliver_stream_opening (conn := conn) (draws := draws) hu hstream
    rw [hfirst] at hshows
    rw [← ih hstream hshows hlater, boundEmpty_concatenates done hfree b, deliverAll, Delivered.before_before]
    rfl

/-- A buffer that ends at a bad cut: from where the bytes `done` have been delivered without an error, the buffers raise a
mismatch. -/
theorem deliverAll_of_badCut (hu : ∀ u ∈ units, u.wellFormed mtu = true) {done : List Byte} {buffers : List (List Byte)}
    (hstream : done ++ buffers.flatten = streamBytes units)
    (hfree : ErrorFree (deliver conn mtu ⟨.boundEmpty, draws⟩ [] done).events) {p : Nat}
    (hp : p ∈ cutPositions done.length buffers) (hbad : badCut 0 units p = true) :
    HasMismatch (deliverAll conn mtu [] (deliver conn mtu ⟨.boundEmpty, draws⟩ [] done).connection buffers).events := by
  induction buffers generalizing done with
  | nil => cases hp
  | cons b buffers ih =>
    rw [List.flatten_cons, ← List.append_assoc] at hstream
    have hshows := deliver_stream_opening (conn := conn) (draws := draws) hu hstream
    have hjoined := boundEmpty_concatenates done hfree b
    rw [cutPositions, ← List.length_append] at hp
    rw [deliverAll, Delivered.before_events, HasMismatch.append]
    cases hcut : badCut 0 units (done ++ b).length with
    | true =>
      rw [hcut, hjoined, Delivered.before_events] at hshows
      exact .inl ((HasMismatch.append.mp hshows).resolve_left hfree.not_hasMismatch)
    | false =>
      rw [hcut] at hshows
      rcases List.mem_cons.mp hp with rfl | hp
      · cases hbad.symm.trans hcut
      · have hlater := ih hstream hshows hp
        rw [hjoined] at hlater
        exact .inr hlater

/-- A whole well-formed stream (41_decode.md R130). -/
theorem deliver_stream (hu : ∀ u ∈ units, u.wellFormed mtu = true) :
    deliver conn mtu ⟨.boundEmpty, draws⟩ [] (streamBytes units)
      = ⟨⟨.boundEmpty, draws⟩, units.map fun u => .frame u.payload⟩ := by
  have h := deliver_units (conn := conn) (draws := draws) (alloc := []) units hu (by simp) []
  rw [List.append_nil, List.drop_nil, deliver_nil DecodeState.boundEmpty_inv rfl, Delivered.before, List.append_nil] at h
  exact h

end

/-- The deliveries of a stream that is cut into buffers, from the empty state. -/
theorem runDelivers_of_boundEmpty {s : State} {mtu : Nat} {alloc : List Bool} (hs : s.Inv)
    (hds : s.connection.ds = .boundEmpty) (hm : mtu ≤ 65535) (ha : ∀ x ∈ alloc, x = true) (buffers : List (List Byte)) :
    ∃ t, runDelivers mtu alloc buffers s = .next t
      ∧ t.connection = (deliverAll s.conn mtu [] ⟨.boundEmpty, s.connection.draws⟩ buffers).connection
      ∧ s.eventsSince t = (deliverAll s.conn mtu [] ⟨.boundEmpty, s.connection.draws⟩ buffers).events := by
  have hconn := State.connection_eq hds
  obtain ⟨t, new, hrun, ht, hout, hes⟩ :=
    runDelivers_deliverAll (alloc := alloc) hs.1 (State.connection_bound hds) hm buffers
  rw [deliverAll_allTrue ha, hconn] at ht hes
  exact ⟨t, hrun, ht, by rw [State.eventsSince, hout, List.drop_left, hes]⟩

end Sys2Proof.Machine
end

section
/-! PROOFS. The statements of 41_decode.md about a stream cut into buffers. -/

namespace Sys2Proof.Machine

/-- Settles O52, by `deliverAll_of_badCut` from the empty state, where nothing has been delivered. -/
theorem badCutAlwaysRaisesAMismatch : Obligations.BadCutAlwaysRaisesAMismatch := by
  intro s units buffers mtu alloc p hs hds hm ha hu hstream hp hbad
  obtain ⟨parts, hrun, -, hes⟩ := runDelivers_of_boundEmpty hs hds hm ha buffers
  have hnil := deliver_nil (conn := s.conn) (mtu := mtu) (alloc := []) (v := ⟨.boundEmpty, s.connection.draws⟩)
    DecodeState.boundEmpty_inv rfl
  have hmismatch := deliverAll_of_badCut (conn := s.conn) (draws := s.connection.draws) (done := []) hu hstream
    (by rw [hnil]; exact nofun) hp hbad
  rw [hnil, ← hes] at hmismatch
  exact ⟨parts, hrun, hmismatch⟩

/-- Settles O51: the whole stream by `deliver_stream`; with no bad cut the buffers do the same by `deliverAll_of_no_badCut`;
with one they raise a mismatch (O52), which the whole stream does not. -/
theorem splitBufferEquivalence : Obligations.SplitBufferEquivalence := by
  intro s units buffers mtu alloc hs hds hm ha hu hstream
  have hconn := State.connection_eq hds
  have hwhole : exec (.deliver (streamBytes units) mtu alloc) s
      = .next (s.answer ⟨⟨.boundEmpty, s.connection.draws⟩, units.map fun u => .frame u.payload⟩) := by
    rw [exec_deliver_answer (State.connection_bound hds) hm, deliver_allTrue ha, ← deliver_stream (conn := s.conn) hu, ← hconn]
  obtain ⟨parts, hrun, hparts, hes⟩ := runDelivers_of_boundEmpty hs hds hm ha buffers
  refine ⟨_, parts, hwhole, State.eventsSince_answer s _, ?_, hrun, ?_, fun hcuts => ?_⟩
  · rw [State.answer_connection hs.1]
  · rintro ⟨hsame, -⟩ p hp
    refine Bool.eq_false_iff.mpr fun hbad => ?_
    obtain ⟨parts', hrun', hmismatch⟩ := badCutAlwaysRaisesAMismatch s units buffers mtu alloc p hs hds hm ha hu hstream hp hbad
    obtain rfl := Host.Outcome.next.inj (hrun.symm.trans hrun')
    rw [hsame, State.eventsSince_answer] at hmismatch
    refine (ErrorFree.frames (units.map StreamUnit.payload)).not_hasMismatch ?_
    rwa [List.map_map]
  · have hnil := deliver_nil (conn := s.conn) (mtu := mtu) (alloc := []) (v := ⟨.boundEmpty, s.connection.draws⟩)
      DecodeState.boundEmpty_inv rfl
    have hall := deliverAll_of_no_badCut (conn := s.conn) (draws := s.connection.draws) (done := []) hu hstream
      (by rw [hnil]; exact nofun) hcuts
    rw [hnil, Delivered.before_nil, deliver_stream hu] at hall
    rw [hes, hparts, hall, State.eventsSince_answer]
    exact ⟨rfl, rfl⟩

end Sys2Proof.Machine
end

section
/-! SUPPORT. The transmit buffer (42_encode.md R143): its length, and the received units a decoder finds in it. -/

namespace Sys2Proof.Machine

/-! ### The buffer with and without the sentinel -/

section
variable {frame : List Byte} {mps : Nat}

theorem transmitBuffer_bare (h : (frame.length + 4) % mps ≠ 0) :
    transmitBuffer frame mps = bytes32LE (headerWord (BitVec.ofNat 16 frame.length)) ++ frame := by
  simp [transmitBuffer, needsPad, h]

theorem transmitBuffer_sentinel (h : (frame.length + 4) % mps = 0) :
    transmitBuffer frame mps
      = bytes32LE (headerWord (BitVec.ofNat 16 frame.length)) ++ frame ++ bytes32LE Config.padSentinel := by
  simp [transmitBuffer, needsPad, h]

/-- 42_encode.md R144. -/
theorem transmitBuffer_length (frame : List Byte) (mps : Nat) :
    (transmitBuffer frame mps).length = frame.length + 4 + (if (frame.length + 4) % mps = 0 then 4 else 0) := by
  split
  case isTrue h => simp [transmitBuffer_sentinel h]; omega
  case isFalse h => simp [transmitBuffer_bare h]; omega

/-! ### The units in it -/

/-- The received unit an encoded frame opens with. Where the frame is odd its pad byte is the sentinel's first byte. -/
def encodedUnit (frame : List Byte) : StreamUnit := ⟨headerWord (BitVec.ofNat 16 frame.length), frame, 0x00#8⟩

theorem headerLen_headerWord_toNat {n : Nat} (h : n ≤ 2047) : (headerLen (headerWord (BitVec.ofNat 16 n))).toNat = n := by
  rw [headerLen_headerWord, BitVec.extractLsb'_toNat, BitVec.toNat_ofNat]
  omega

theorem encodedUnit_wellFormed {mtu : Nat} (hn : frame.length ≤ 2047) (hsize : frame.length ≤ mtu + 18) :
    (encodedUnit frame).wellFormed mtu = true :=
  StreamUnit.wellFormed_iff.mpr ⟨headerValid_headerWord _, headerLen_headerWord_toNat hn, hsize⟩

/-- No pad byte follows an even frame. -/
theorem encodedUnit_bytes_even (h : frame.length % 2 = 0) :
    (encodedUnit frame).bytes = bytes32LE (headerWord (BitVec.ofNat 16 frame.length)) ++ frame := by
  simp [StreamUnit.bytes, encodedUnit, h]

theorem encodedUnit_bytes_odd (h : frame.length % 2 = 1) :
    (encodedUnit frame).bytes = bytes32LE (headerWord (BitVec.ofNat 16 frame.length)) ++ frame ++ [0x00#8] := by
  simp [StreamUnit.bytes, encodedUnit, h]

/-- The sentinel is an encoded empty frame (41_decode.md R134). -/
theorem encodedUnit_nil_bytes : (encodedUnit []).bytes = bytes32LE Config.padSentinel := by decide

theorem transmitBuffer_even_bare (heven : frame.length % 2 = 0) (h : (frame.length + 4) % mps ≠ 0) :
    transmitBuffer frame mps = streamBytes [encodedUnit frame] := by
  rw [transmitBuffer_bare h, ← encodedUnit_bytes_even heven, streamBytes, List.flatMap_singleton]

theorem transmitBuffer_even_sentinel (heven : frame.length % 2 = 0) (h : (frame.length + 4) % mps = 0) :
    transmitBuffer frame mps = streamBytes [encodedUnit frame, encodedUnit []] := by
  rw [transmitBuffer_sentinel h, ← encodedUnit_bytes_even heven, ← encodedUnit_nil_bytes, streamBytes, List.flatMap_cons,
    List.flatMap_singleton]

/-- The decoder takes the sentinel's first byte for an odd frame's pad byte, and three bytes are left. -/
theorem transmitBuffer_odd_sentinel (hodd : frame.length % 2 = 1) (h : (frame.length + 4) % mps = 0) :
    transmitBuffer frame mps = (encodedUnit frame).bytes ++ [0x00#8, 0xFF#8, 0xFF#8] := by
  have sentinel : bytes32LE Config.padSentinel = [0x00#8] ++ [0x00#8, 0xFF#8, 0xFF#8] := by decide
  rw [transmitBuffer_sentinel h, encodedUnit_bytes_odd hodd, sentinel, List.append_assoc _ [_]]
end

/-! ### Its delivery -/

section
variable {conn mtu draws mps : Nat} {frame : List Byte}

/-- An encoded odd frame is emitted; then its pad byte is missing (41_decode.md R126), or three bytes of the sentinel are
left where a header is expected (R116). -/
theorem deliver_transmitBuffer_odd (hn : frame.length ≤ 2047) (hsize : frame.length ≤ mtu + 18)
    (hodd : frame.length % 2 = 1) :
    deliver conn mtu ⟨.boundEmpty, draws⟩ [] (transmitBuffer frame mps)
      = (Delivered.failed conn draws .internalAccountingMismatch).before [.frame frame] := by
  by_cases hpad : (frame.length + 4) % mps = 0
  · rw [transmitBuffer_odd_sentinel hodd hpad, deliver_unit (encodedUnit_wellFormed hn hsize) rfl, deliver_three]
    rfl
  · have hlen := headerLen_headerWord_toNat hn
    have harrives : HeaderArrives DecodeState.boundEmpty (transmitBuffer frame mps)
        (headerWord (BitVec.ofNat 16 frame.length)) frame := .inl ⟨rfl, transmitBuffer_bare hpad⟩
    rw [deliver_header_accepted (v := ⟨.boundEmpty, draws⟩) harrives DecodeState.boundEmpty_inv rfl
      (headerValid_headerWord _) (hlen.symm ▸ hsize) rfl,
      deliver_payload_pad_missing (by simp [hlen]) (hlen.symm ▸ hodd), List.nil_append]
end

end Sys2Proof.Machine
end

section
/-! PROOFS. The statements of 42_encode.md. -/

namespace Sys2Proof.Machine

/-- Settles O18: ENCODE checks the length of the frame first, and `mps` second. -/
theorem encodeFaultsOutsideItsContract : Obligations.EncodeFaultsOutsideItsContract :=
  fun _ _ _ => ⟨fun hn hm => exec_encode_long hm hn, exec_encode_zero⟩

/-- Settles O19, by `transmitBuffer_length`: the header and the sentinel are four bytes each. -/
theorem encodeOutputLength : Obligations.EncodeOutputLength := by
  intro s frame mps hn h0 hm
  have hlen := transmitBuffer_length frame mps
  refine ⟨_, exec_encode hn h0 hm, hlen, ?_⟩
  split at hlen <;> omega

/-- Settles O20: with the sentinel the length is 4 more than a multiple of `mps`, and 4 is a multiple of `mps` just where
`mps` is 1, 2 or 4. -/
theorem sentinelAvoidsPacketMultiples : Obligations.SentinelAvoidsPacketMultiples := by
  intro s frame mps hn h0 hm
  have hlen := transmitBuffer_length frame mps
  refine ⟨_, exec_encode hn h0 hm, fun hlarge => ?_, fun hsmall hpad => ?_⟩
  · by_cases hpad : (frame.length + 4) % mps = 0
    · rw [hlen, if_pos hpad, Nat.add_mod, hpad, Nat.zero_add, Nat.mod_mod, Nat.mod_eq_of_lt hlarge]
      decide
    · rwa [hlen, if_neg hpad]
  · rw [hlen, if_pos hpad]
    rcases hsmall with rfl | rfl | rfl <;> omega

/-- Settles O53: an even frame's buffer is a well-formed stream, of the frame's unit and, for the sentinel, that of an empty
frame (`deliver_stream`); an odd frame's is `deliver_transmitBuffer_odd`. -/
theorem loopbackEmitsTheFrame : Obligations.LoopbackEmitsTheFrame := by
  intro s frame mps mtu alloc hds hn h0 hm hmtu hsize ha
  have hunit := encodedUnit_wellFormed hn hsize
  have hempty : (encodedUnit []).wellFormed mtu = true := encodedUnit_wellFormed (Nat.zero_le _) (Nat.zero_le _)
  have hexec (buf : List Byte) : exec (.deliver buf mtu alloc) s
      = .next (s.answer (deliver s.conn mtu ⟨.boundEmpty, s.connection.draws⟩ [] buf)) := by
    rw [exec_deliver_answer (State.connection_bound hds) hmtu, deliver_allTrue ha, ← State.connection_eq hds]
  refine ⟨_, exec_encode hn h0 hm, fun heven hpad => ?_, fun heven hpad => ?_, fun hodd => ?_⟩
  · rw [hexec, transmitBuffer_even_bare heven hpad, deliver_stream (by simp [hunit])]
    rfl
  · rw [hexec, transmitBuffer_even_sentinel heven hpad, deliver_stream (by simp [hunit, hempty])]
    rfl
  · rw [hexec, deliver_transmitBuffer_odd hn hsize hodd]
    rfl

end Sys2Proof.Machine
end

section
/-! PROOFS. The statements of 43_lifecycle.md. -/

namespace Sys2Proof.Machine

/-- Settles O27: UNBIND and DELIVER fault by `exec_unbind_unbound` and `exec_deliver_unbound`; the answers of the stateless
commands ask nothing of the binding, only their operands' ranges. -/
theorem unboundConnectionsFault : Obligations.UnboundConnectionsFault :=
  fun _ hb =>
    ⟨exec_unbind_unbound hb,
      fun buf _ alloc hm => exec_deliver_unbound hb hm buf alloc,
      fun _ _ hn h0 hm => ⟨_, exec_encode hn h0 hm⟩,
      fun _ hn => ⟨_, exec_encodeHeader hn⟩,
      fun _ h4 => ⟨_, _, exec_decodeHeader h4⟩⟩

/-- Settles O25, by `exec_bind_bound`. -/
theorem bindWhileBoundFaults : Obligations.BindWhileBoundFaults := fun _ => exec_bind_bound

/-- Settles O24: BIND stores `DecodeState.boundEmpty`, whose fields are those of 10_state.md R33 (`exec_bind_unbound`). -/
theorem bindCreatesAnEmptyDecodeState : Obligations.BindCreatesAnEmptyDecodeState := by
  refine fun s => ⟨fun conn ops => ?_, bindWhileBoundFaults s, exec_bind_unbound⟩
  obtain ⟨hdecode, -⟩ := commandWordsDecodeToTheirCommands conn ops
  exact hdecode

/-- Settles O26: UNBIND stores `DecodeState.unbound`, which holds no frame, and the trace it returns is empty
(`exec_unbind_bound`). -/
theorem unbindDiscardsSilently : Obligations.UnbindDiscardsSilently :=
  fun _ hb => ⟨.unbound, rfl, rfl, exec_unbind_bound hb⟩

end Sys2Proof.Machine
end

section
/-! SUPPORT. What a command, a step and a run leave of the recorded faults (60_exceptions.md R170). -/

namespace Sys2Proof.Machine

/-- Every command answers a next state; one that records a fault does nothing else (`exec_cases`). -/
theorem exec_keepsFaults_or_recordsFault (i : Instr) (s : State) :
    ∃ t, exec i s = .next t ∧ (t.faults = s.faults ∨ ∃ r, t = s.recordFault r) := by
  rcases exec_cases i s with ⟨r, e⟩ | ⟨o, e⟩ | ⟨-, e⟩ | ⟨-, e⟩ | ⟨-, buf, mtu, alloc, -, e⟩
  · exact ⟨_, e, .inr ⟨r, rfl⟩⟩
  · exact ⟨_, e, .inl rfl⟩
  · exact ⟨_, e, .inl rfl⟩
  · exact ⟨_, e, .inl rfl⟩
  · exact ⟨_, e, .inl rfl⟩

theorem core_run_zero (s : State) : core.run 0 s = .next s := rfl

theorem core_run_succ {s t : State} (h : step s = .next t) (k : Nat) : core.run (k + 1) s = core.run k t := by
  have hcore : core.step s = .next t := h
  simp only [Host.Core.run, hcore]

end Sys2Proof.Machine
end

section
/-! PROOFS. The statements of 60_exceptions.md. -/

namespace Sys2Proof.Machine

/-- Settles O5, by `step_idle`. -/
theorem idleStepHoldsTheState : Obligations.IdleStepHoldsTheState := fun _ => step_idle

/-- Settles O58: an idle step keeps the record, a reserved word only adds to it, and a command does one or the other
(`exec_keepsFaults_or_recordsFault`). -/
theorem faultingCommandsChangeNothing : Obligations.FaultingCommandsChangeNothing := by
  intro s
  cases hq : s.pending with
  | nil => exact ⟨s, step_idle hq, .inl rfl⟩
  | cons c rest =>
    cases hd : decode c with
    | instr i =>
      obtain ⟨t, ht, hkept | ⟨r, hrecorded⟩⟩ :=
        exec_keepsFaults_or_recordsFault i { s with pending := rest, conn := c.conn }
      · exact ⟨t, (step_instr hq hd).trans ht, .inl hkept⟩
      · exact ⟨t, (step_instr hq hd).trans ht, .inr ⟨c, rest, r, rfl, hrecorded⟩⟩
    | reservedCommand w => exact ⟨_, step_reserved hq hd, .inr ⟨c, rest, _, rfl, rfl⟩⟩

/-- A step only adds to the record of faults. -/
theorem step_faults_extend (s : State) : ∃ t new, step s = .next t ∧ t.faults = s.faults ++ new := by
  obtain ⟨t, ht, hkept | ⟨c, rest, r, -, hrecorded⟩⟩ := faultingCommandsChangeNothing s
  · exact ⟨t, [], ht, by rw [hkept, List.append_nil]⟩
  · exact ⟨t, [⟨c.conn, r⟩], ht, by rw [hrecorded]; rfl⟩

/-- So does a run, by induction on the number of steps. -/
theorem core_run_faults_extend (k : Nat) (s : State) :
    ∃ t new, core.run k s = .next t ∧ t.faults = s.faults ++ new := by
  induction k generalizing s with
  | zero => exact ⟨s, [], core_run_zero s, (List.append_nil _).symm⟩
  | succ k ih =>
    obtain ⟨t, first, hstep, hfirst⟩ := step_faults_extend s
    obtain ⟨u, later, hrun, hlater⟩ := ih t
    exact ⟨u, first ++ later, (core_run_succ hstep k).trans hrun, by rw [hlater, hfirst, List.append_assoc]⟩

/-- Settles O8, by `core_run_faults_extend`: a successful run ends with an empty record, so it began with one. -/
theorem faultsAreNeverCleared : Obligations.FaultsAreNeverCleared := by
  refine fun s k => ⟨core_run_faults_extend k s, fun hfault hclean => hfault ?_⟩
  obtain ⟨t, new, hrun, hfaults⟩ := core_run_faults_extend k s
  obtain ⟨u, hrun', hnone⟩ := hclean
  cases hrun.symm.trans hrun'
  exact (List.append_eq_nil_iff.mp (hfaults ▸ hnone)).1

end Sys2Proof.Machine
end
